-- ==== Sys2Proof/Word.lean ====
section
/-! DEFINITION. The machine's word types (spec/00_scope.md R7, R9; spec/10_state.md R20, R22). -/

namespace Sys2Proof

/-- An 8-bit value: a general register, SP, DT, ST, a byte of memory (R20, R24, R28, R29). -/
abbrev Byte := BitVec 8

/-- A 16-bit value: I, PC, a stack entry, an instruction word (R22, R23, R25, R70). -/
abbrev Word := BitVec 16

/-- The low 12 bits of an instruction word, the operand `nnn` (R71). -/
abbrev Addr12 := BitVec 12

/-- The index of a general register, V0 to VF (R20). -/
abbrev Reg := Fin 16

/-- The register that doubles as the flag, V[15] (R21). -/
abbrev VF : Reg := 15

/-- `zext_16` of R8: zero extension to 16 bits. -/
abbrev zext16 {w : Nat} (v : BitVec w) : Word := v.setWidth 16

end Sys2Proof
end

