-- ==== Sys2Proof/Syntax.lean ====
section
/-! DEFINITION. The instruction set: one constructor for each of the 34 rows of spec/opcode_table.json, in the table's
order (spec/30_encoding.md R76). The operand fields have the exact width of the encoding (R71), so a term holds no value
that an instruction word could not hold. -/

namespace Sys2Proof

/-- The 34 instructions of R76. `x` and `y` are register indexes, `nn` an immediate byte, `nnn` a 12-bit address and `n`
a sprite height (R71). `shr` and `shl` keep the field `y`: it stands in the encoding, and R116 and R118 do not use it. -/
inductive Instr where
  /-- `00E0` CLS (R90). -/
  | cls
  /-- `00EE` RET (R91). -/
  | ret
  /-- `1NNN` JP nnn (R95). -/
  | jp (nnn : Addr12)
  /-- `2NNN` CALL nnn (R96). -/
  | call (nnn : Addr12)
  /-- `3XNN` SE Vx, nn (R100). -/
  | seImm (x : Reg) (nn : Byte)
  /-- `4XNN` SNE Vx, nn (R101). -/
  | sneImm (x : Reg) (nn : Byte)
  /-- `5XY0` SE Vx, Vy (R102). -/
  | seReg (x y : Reg)
  /-- `6XNN` LD Vx, nn (R105). -/
  | ldImm (x : Reg) (nn : Byte)
  /-- `7XNN` ADD Vx, nn (R106). -/
  | addImm (x : Reg) (nn : Byte)
  /-- `8XY0` LD Vx, Vy (R110). -/
  | ldReg (x y : Reg)
  /-- `8XY1` OR Vx, Vy (R111). -/
  | orReg (x y : Reg)
  /-- `8XY2` AND Vx, Vy (R112). -/
  | andReg (x y : Reg)
  /-- `8XY3` XOR Vx, Vy (R113). -/
  | xorReg (x y : Reg)
  /-- `8XY4` ADD Vx, Vy (R114). -/
  | addReg (x y : Reg)
  /-- `8XY5` SUB Vx, Vy (R115). -/
  | subReg (x y : Reg)
  /-- `8XY6` SHR Vx (R116). -/
  | shr (x y : Reg)
  /-- `8XY7` SUBN Vx, Vy (R117). -/
  | subnReg (x y : Reg)
  /-- `8XYE` SHL Vx (R118). -/
  | shl (x y : Reg)
  /-- `9XY0` SNE Vx, Vy (R103). -/
  | sneReg (x y : Reg)
  /-- `ANNN` LD I, nnn (R125). -/
  | ldI (nnn : Addr12)
  /-- `BNNN` JP V0, nnn (R126). -/
  | jpV0 (nnn : Addr12)
  /-- `CXNN` RND Vx, nn (R127). -/
  | rnd (x : Reg) (nn : Byte)
  /-- `DXYN` DRW Vx, Vy, n (R130). -/
  | drw (x y : Reg) (n : Fin 16)
  /-- `EX9E` SKP Vx (R140). -/
  | skp (x : Reg)
  /-- `EXA1` SKNP Vx (R141). -/
  | sknp (x : Reg)
  /-- `FX07` LD Vx, DT (R146). -/
  | ldVxDt (x : Reg)
  /-- `FX0A` LD Vx, K (R147). -/
  | waitKey (x : Reg)
  /-- `FX15` LD DT, Vx (R148). -/
  | ldDtVx (x : Reg)
  /-- `FX18` LD ST, Vx (R149). -/
  | ldStVx (x : Reg)
  /-- `FX1E` ADD I, Vx (R150). -/
  | addI (x : Reg)
  /-- `FX29` LD F, Vx (R151). -/
  | ldFont (x : Reg)
  /-- `FX33` LD B, Vx (R152). -/
  | bcd (x : Reg)
  /-- `FX55` LD [I], Vx (R153). -/
  | storeRegs (x : Reg)
  /-- `FX65` LD Vx, [I] (R154). -/
  | loadRegs (x : Reg)
  deriving DecidableEq, Repr

end Sys2Proof
end

