-- ==== Sys2Proof/Decode.lean ====
section
/-! DEFINITION. Decoding (spec/30_encoding.md R70 to R77) and, after it, encoding from the formats of R72. Decoding is
total and rejects by name; an illegal word never falls through to a neighbour. -/

namespace Sys2Proof

/-- Why a sequence of bytes is no instruction. -/
inductive DecodeError where
  /-- The word matches no row of R76 (R75, R77). -/
  | invalidOpcode (w : Word)
  /-- Fewer than the two bytes every instruction has (R70); the machine's fetch never decodes such a sequence. -/
  | truncated
  deriving DecidableEq, Repr

/-- The field `op` = `w[15:12]`, the opcode family (R71). -/
def opOf (w : Word) : Nat := (w.extractLsb' 12 4).toNat

/-- The field `x` = `w[11:8]` (R71). -/
def xOf (w : Word) : Reg := (w.extractLsb' 8 4).toFin

/-- The field `y` = `w[7:4]` (R71). -/
def yOf (w : Word) : Reg := (w.extractLsb' 4 4).toFin

/-- The field `n` = `w[3:0]` (R71). -/
def nOf (w : Word) : Fin 16 := (w.extractLsb' 0 4).toFin

/-- The field `nn` = `w[7:0]` (R71). -/
def nnOf (w : Word) : Byte := w.extractLsb' 0 8

/-- The field `nnn` = `w[11:0]` (R71). -/
def nnnOf (w : Word) : Addr12 := w.extractLsb' 0 12

/-- Family 0x0, dispatched on the whole word (R75, R92). -/
def decode0 (w : Word) : Except DecodeError Instr :=
  if w = 0x00E0 then .ok .cls
  else if w = 0x00EE then .ok .ret
  else .error (.invalidOpcode w)

/-- Family 0x8, dispatched on `n` (R75, R119). -/
def decode8 (w : Word) : Except DecodeError Instr :=
  match (nOf w).val with
  | 0x0 => .ok (.ldReg (xOf w) (yOf w))
  | 0x1 => .ok (.orReg (xOf w) (yOf w))
  | 0x2 => .ok (.andReg (xOf w) (yOf w))
  | 0x3 => .ok (.xorReg (xOf w) (yOf w))
  | 0x4 => .ok (.addReg (xOf w) (yOf w))
  | 0x5 => .ok (.subReg (xOf w) (yOf w))
  | 0x6 => .ok (.shr (xOf w) (yOf w))
  | 0x7 => .ok (.subnReg (xOf w) (yOf w))
  | 0xE => .ok (.shl (xOf w) (yOf w))
  | _ => .error (.invalidOpcode w)

/-- Family 0xE, dispatched on `nn` (R75, R142). -/
def decodeE (w : Word) : Except DecodeError Instr :=
  match (nnOf w).toNat with
  | 0x9E => .ok (.skp (xOf w))
  | 0xA1 => .ok (.sknp (xOf w))
  | _ => .error (.invalidOpcode w)

/-- Family 0xF, dispatched on `nn` (R75, R145). -/
def decodeF (w : Word) : Except DecodeError Instr :=
  match (nnOf w).toNat with
  | 0x07 => .ok (.ldVxDt (xOf w))
  | 0x0A => .ok (.waitKey (xOf w))
  | 0x15 => .ok (.ldDtVx (xOf w))
  | 0x18 => .ok (.ldStVx (xOf w))
  | 0x1E => .ok (.addI (xOf w))
  | 0x29 => .ok (.ldFont (xOf w))
  | 0x33 => .ok (.bcd (xOf w))
  | 0x55 => .ok (.storeRegs (xOf w))
  | 0x65 => .ok (.loadRegs (xOf w))
  | _ => .error (.invalidOpcode w)

/-- `Decode(w)` of R75: the dispatch on the top nibble, with the families' own keys below it. Families 0x5 and 0x9 also
need `n = 0` (R77). -/
def decode (w : Word) : Except DecodeError Instr :=
  match opOf w with
  | 0x0 => decode0 w
  | 0x1 => .ok (.jp (nnnOf w))
  | 0x2 => .ok (.call (nnnOf w))
  | 0x3 => .ok (.seImm (xOf w) (nnOf w))
  | 0x4 => .ok (.sneImm (xOf w) (nnOf w))
  | 0x5 => if nOf w = 0 then .ok (.seReg (xOf w) (yOf w)) else .error (.invalidOpcode w)
  | 0x6 => .ok (.ldImm (xOf w) (nnOf w))
  | 0x7 => .ok (.addImm (xOf w) (nnOf w))
  | 0x8 => decode8 w
  | 0x9 => if nOf w = 0 then .ok (.sneReg (xOf w) (yOf w)) else .error (.invalidOpcode w)
  | 0xA => .ok (.ldI (nnnOf w))
  | 0xB => .ok (.jpV0 (nnnOf w))
  | 0xC => .ok (.rnd (xOf w) (nnOf w))
  | 0xD => .ok (.drw (xOf w) (yOf w) (nOf w))
  | 0xE => decodeE w
  | _ => decodeF w

/-- The instruction word of two consecutive bytes, the high byte first (R54, R73). -/
def wordOfBytes (hi lo : Byte) : Word := hi ++ lo

/-- The byte of an instruction word at the lower address (R54). -/
def highByte (w : Word) : Byte := w.extractLsb' 8 8

/-- The byte of an instruction word at the higher address (R54). -/
def lowByte (w : Word) : Byte := w.extractLsb' 0 8

/-- Decoding from bytes in the order memory holds them: the first instruction and the bytes after it (R70, R75). -/
def decodeBytes : List Byte → Except DecodeError (Instr × List Byte)
  | hi :: lo :: rest => (decode (wordOfBytes hi lo)).map fun i => (i, rest)
  | _ => .error .truncated

/-- A word of the opcode table as the bits of an instruction: the bits above `nbits` are 0 (R70: every instruction is 16
bits). -/
def tableWord (nbits w : Nat) : Word := BitVec.ofNat 16 (w % 2 ^ nbits)

/-- The instruction the decoder reads from a word numbered as spec/opcode_table.json numbers it: the word is laid out
high byte first, as the hardware stores it, and given to `decodeBytes`. -/
def decodeTableWord (nbits w : Nat) : Option Instr :=
  match decodeBytes [highByte (tableWord nbits w), lowByte (tableWord nbits w)] with
  | .ok (i, _) => some i
  | .error _ => none

/-- Format `NNN` of R72. -/
def encNNN (op : BitVec 4) (nnn : Addr12) : Word := op ++ nnn

/-- Format `XNN` of R72. -/
def encXNN (op : BitVec 4) (x : Reg) (nn : Byte) : Word := op ++ ((BitVec.ofFin x : BitVec 4) ++ nn)

/-- Formats `XYL` and `XYN` of R72. -/
def encXYN (op : BitVec 4) (x y : Reg) (n : BitVec 4) : Word :=
  op ++ ((BitVec.ofFin x : BitVec 4) ++ ((BitVec.ofFin y : BitVec 4) ++ n))

/-- The word of an instruction, from the patterns of R76 and the formats of R72. -/
def encode : Instr → Word
  | .cls => 0x00E0
  | .ret => 0x00EE
  | .jp nnn => encNNN 0x1 nnn
  | .call nnn => encNNN 0x2 nnn
  | .seImm x nn => encXNN 0x3 x nn
  | .sneImm x nn => encXNN 0x4 x nn
  | .seReg x y => encXYN 0x5 x y 0x0
  | .ldImm x nn => encXNN 0x6 x nn
  | .addImm x nn => encXNN 0x7 x nn
  | .ldReg x y => encXYN 0x8 x y 0x0
  | .orReg x y => encXYN 0x8 x y 0x1
  | .andReg x y => encXYN 0x8 x y 0x2
  | .xorReg x y => encXYN 0x8 x y 0x3
  | .addReg x y => encXYN 0x8 x y 0x4
  | .subReg x y => encXYN 0x8 x y 0x5
  | .shr x y => encXYN 0x8 x y 0x6
  | .subnReg x y => encXYN 0x8 x y 0x7
  | .shl x y => encXYN 0x8 x y 0xE
  | .sneReg x y => encXYN 0x9 x y 0x0
  | .ldI nnn => encNNN 0xA nnn
  | .jpV0 nnn => encNNN 0xB nnn
  | .rnd x nn => encXNN 0xC x nn
  | .drw x y n => encXYN 0xD x y (BitVec.ofFin n)
  | .skp x => encXNN 0xE x 0x9E
  | .sknp x => encXNN 0xE x 0xA1
  | .ldVxDt x => encXNN 0xF x 0x07
  | .waitKey x => encXNN 0xF x 0x0A
  | .ldDtVx x => encXNN 0xF x 0x15
  | .ldStVx x => encXNN 0xF x 0x18
  | .addI x => encXNN 0xF x 0x1E
  | .ldFont x => encXNN 0xF x 0x29
  | .bcd x => encXNN 0xF x 0x33
  | .storeRegs x => encXNN 0xF x 0x55
  | .loadRegs x => encXNN 0xF x 0x65

/-- The bytes of an instruction in memory order, the high byte first (R54). -/
def encodeBytes (i : Instr) : List Byte := [highByte (encode i), lowByte (encode i)]

end Sys2Proof
end

