-- ==== Sys2Proof/Config.lean ====
section
/-! DEFINITION. The implementation parameters of spec/00_scope.md R6 whose values the source states, and the
one free value of the model: the random byte of `CXNN`, which the block takes from outside (R127, R192). The parameters
the spec leaves open with a default (the font bytes, the shift source, the effect of `FX55` and `FX65` on I) stand in
Machine/Font.lean and Machine/Operands.lean. -/

namespace Sys2Proof

/-- `MEM_SIZE`: addresses 0x000 to 0xFFF exist, no others (R6, R50). -/
@[simp] abbrev Config.memSize : Nat := 4096

/-- `FONT_BASE`: the address of glyph 0 (R6, R64). -/
@[simp] abbrev Config.fontBase : Nat := 0

/-- `FONT_BYTES`: 16 glyphs of 5 bytes, at 0x000 to 0x04F (R6, R64). -/
@[simp] abbrev Config.fontBytes : Nat := 80

/-- `GLYPH_BYTES` (R6, R151). -/
@[simp] abbrev Config.glyphBytes : Nat := 5

/-- `PROG_BASE`: where programs are loaded, and PC after reset (R6, R39, R65). -/
@[simp] abbrev Config.progBase : Nat := 0x200

/-- `STACK_DEPTH` (R6, R25). -/
@[simp] abbrev Config.stackDepth : Nat := 16

/-- The free value of the model: the byte the random source outside the block supplies at draw number `k`. R127: "any
8-bit value, no stated distribution, no relation between the values of different steps". It has no body, so nothing in
Lean can evaluate it (log entry 2). -/
opaque Config.rndStream : Nat → Byte

end Sys2Proof
end

