-- ==== Sys2Proof/Machine/State.lean ====
section
/-! DEFINITION. The state of one machine instance (spec/10_state.md R20 to R32), the faults and refusals a step can end
in, and the state after reset (R39, R200). -/

namespace Sys2Proof.Machine

/-- Memory as (address, byte) pairs in one canonical form: addresses rising, below 4096, and no entry equal to what an
unlisted address reads as, its reset content (R29; `Memory.wf` in Machine/Ops.lean says the form). -/
abbrev Memory := List Host.Cell

/-- The display: 32 rows of 64 pixels, `FB[y][x]`, true is on (R30). -/
abbrev Display := Vector (Vector Bool 64) 32

/-- The state of a machine instance. Every field but the last two is the spec's (R32 gives the list); `rndIn` and `draws`
are the model's own and stand for the step input `rnd`, which is outside the block (R32, R127; log entry 2). -/
structure State where
  /-- V0 to VF, VF being the flag (R20, R21). -/
  v : Vector Byte 16
  /-- The index register I (R22). -/
  i : Word
  /-- The program counter (R23). -/
  pc : Word
  /-- The stack pointer: the index of the next free slot (R24). -/
  sp : Byte
  /-- The call stack (R25). -/
  stk : Vector Word 16
  /-- The delay timer (R28). -/
  dt : Byte
  /-- The sound timer (R28). -/
  st : Byte
  /-- The memory (R29). -/
  mem : Memory
  /-- The display (R30). -/
  fb : Display
  /-- The key table, true is pressed (R31). -/
  key : Vector Bool 16
  /-- MODEL'S OWN: the random bytes the host has already supplied, the next one first (R127). -/
  rndIn : List Byte
  /-- MODEL'S OWN: how many bytes have been drawn from the free stream `Config.rndStream`. -/
  draws : Nat
  deriving DecidableEq, Repr

/-- The faults (R170): the step reports a typed failure to its caller. Each holds the recorded value `info` of R170 and
`after`, the state the fault leaves (R176, R177), from which the next step of the host goes on (R182). -/
inductive Fault where
  /-- Raised by the fetch of any step, `DXYN`, `FX33`, `FX55`, `FX65` and the program load, at an access to an address of
  4096 or more (R171). The spec's own fault: neither safe nor unsafe beyond the log entries about the state it leaves. -/
  | outOfBoundsMemory (addr : Nat) (after : State)
  /-- Raised by `2NNN` when SP is 16 (R172). The spec's own fault; in states with SP above 16, which no run reaches, it is
  the model's choice and safe (log entry 3). -/
  | stackOverflow (value : Word) (after : State)
  /-- Raised by `00EE` when SP is 0 (R173). The spec's own fault. -/
  | stackUnderflow (after : State)
  /-- Raised by the decode of any step whose word matches no row of the opcode table (R174). The spec's own fault. -/
  | invalidOpcode (word : Word) (after : State)
  /-- Raised by `EX9E` and `EXA1` when the key index is above 15 (R175). The spec's own fault. -/
  | keyIndexOutOfRange (index : Byte) (after : State)
  deriving DecidableEq, Repr

/-- The refusals: forms the model gives no meaning. -/
inductive Refusal where
  /-- Raised by no arm of `exec`: every instruction of the opcode table has its meaning. Safe. -/
  | notModelled (mnemonic : String)
  deriving DecidableEq, Repr

/-- The outcome of a step or of an operation that can raise a fault. -/
abbrev Result := Host.Outcome State Fault Refusal

/-- The display with every pixel off (R90, R39). -/
def Display.blank : Display := Vector.replicate 32 (Vector.replicate 64 false)

/-- The state after reset and after machine creation (R39, R200, R201). Memory lists nothing: an unlisted address reads as
its reset content. The spec states PC and memory, and derives SP; the values of V, I, STK, DT, ST, FB and KEY are its
decision D20 (log entry 1). -/
def State.reset : State where
  v := Vector.replicate 16 0
  i := 0
  pc := 0x0200
  sp := 0
  stk := Vector.replicate 16 0
  dt := 0
  st := 0
  mem := []
  fb := Display.blank
  key := Vector.replicate 16 false
  rndIn := []
  draws := 0

end Sys2Proof.Machine
end

