-- ==== Sys2Proof/Machine/Ops.lean ====
section
/-! DEFINITION. The named operations over registers, memory, the call stack, the keys, the display and the random input,
and the raising of a fault (spec/10_state.md R24 to R31, spec/20_memory.md, spec/46_draw.md R132, spec/47_key_skip.md R142,
spec/60_exceptions.md R176). An operation that can fault takes the rest of the pseudocode as its last argument, or gives a
`Result` that `andThen` continues. -/

namespace Sys2Proof.Machine

/-! ### Registers -/

/-- `V[x]` (R8, R20). -/
def State.getV (s : State) (x : Reg) : Byte := s.v[x]

/-- `V[x] <- b` (R8, R20): no register is hardwired. -/
def State.setV (s : State) (x : Reg) (b : Byte) : State := { s with v := s.v.set x b }

/-- `I <- w` (R22). -/
def State.setI (s : State) (w : Word) : State := { s with i := w }

/-- `PC <- w` (R23): no target is masked or checked (R97). -/
def State.setPc (s : State) (w : Word) : State := { s with pc := w }

/-- `DT <- b` (R28). -/
def State.setDt (s : State) (b : Byte) : State := { s with dt := b }

/-- `ST <- b` (R28). -/
def State.setSt (s : State) (b : Byte) : State := { s with st := b }

/-- The call stack and its pointer, written together by `Push` and `Pop` only (R24, R25). -/
def State.setStack (s : State) (sp : Byte) (stk : Vector Word 16) : State := { s with sp := sp, stk := stk }

/-- The memory as a whole. -/
def State.setMem (s : State) (m : Memory) : State := { s with mem := m }

/-- The display as a whole (R30). -/
def State.setFb (s : State) (d : Display) : State := { s with fb := d }

/-- The key table as a whole, written by the host's `set_key` only (R31). -/
def State.setKeys (s : State) (k : Vector Bool 16) : State := { s with key := k }

/-- The random input of the model (log entry 2). -/
def State.setRnd (s : State) (rndIn : List Byte) (draws : Nat) : State := { s with rndIn := rndIn, draws := draws }

/-! ### Faults -/

/-- `raise F(info)` (R8, R176, R179): the step ends here with the outcome `Fault(F, info)`; what was written before stays
written. There is no trap entry in the machine: nothing is saved or masked, no mode and no control transfer (R179). -/
def raise (f : State → Fault) (s : State) : Result := .fault (f s)

/-- The state a fault leaves (R177). It is what stands in the place of a return from an exception: the machine has no such
instruction, and the next step of the host goes on from here (R182). -/
def Fault.after : Fault → State
  | .outOfBoundsMemory _ s => s
  | .stackOverflow _ s => s
  | .stackUnderflow s => s
  | .invalidOpcode _ s => s
  | .keyIndexOutOfRange _ s => s

/-- The numeric code of a fault (R170). -/
def Fault.code : Fault → Nat
  | .outOfBoundsMemory _ _ => 1
  | .stackOverflow _ _ => 2
  | .stackUnderflow _ => 3
  | .invalidOpcode _ _ => 4
  | .keyIndexOutOfRange _ _ => 5

/-- The recorded value `info` of a fault; `StackUnderflow` has none (R170). -/
def Fault.info : Fault → Option Nat
  | .outOfBoundsMemory a _ => some a
  | .stackOverflow w _ => some w.toNat
  | .stackUnderflow _ => none
  | .invalidOpcode w _ => some w.toNat
  | .keyIndexOutOfRange k _ => some k.toNat

/-- The pseudocode `r; k`: a fault in `r` ends the step (R176). -/
def andThen (r : Result) (k : State → Result) : Result :=
  match r with
  | .next s => k s
  | .fault f => .fault f
  | .refused q => .refused q

/-! ### Memory -/

/-- The reset content of the byte at `a`, which is what an unlisted address reads as: the font at 0x000 to 0x04F, zero
elsewhere (R29, R39, R64). -/
def resetByte (a : Nat) : Byte := font.getD a 0

/-- The entry that says that the byte at `a` is `b`: none where `b` is the reset content. -/
def cellOf (a : Nat) (b : Byte) : Memory := if b = resetByte a then [] else [(a, b)]

/-- The byte at `a`, listed or not. -/
def Memory.byteAt : Memory → Nat → Byte
  | [], a => resetByte a
  | (c, b) :: m, a => if c = a then b else Memory.byteAt m a

/-- The memory with the byte at `a` replaced by `b`, in canonical form again. -/
def Memory.put : Memory → Nat → Byte → Memory
  | [], a, b => cellOf a b
  | (c, d) :: m, a, b =>
    if a < c then cellOf a b ++ (c, d) :: m
    else if a = c then cellOf a b ++ m
    else (c, d) :: Memory.put m a b

/-- The canonical form from address `lo` on: addresses rising and existing, no entry equal to the reset content. -/
def Memory.wfFrom : Nat → Memory → Bool
  | _, [] => true
  | lo, (a, b) :: m => decide (lo ≤ a) && decide (a < Config.memSize) && decide (b ≠ resetByte a) && Memory.wfFrom (a + 1) m

/-- The canonical form of memory. -/
def Memory.wf (m : Memory) : Bool := Memory.wfFrom 0 m

/-- The byte at an address, none where the address does not exist: an address is valid if and only if it is below 4096
(R50, R52). -/
def Memory.read (m : Memory) (a : Nat) : Option Byte := if a < Config.memSize then some (m.byteAt a) else none

/-- The memory after the byte at `a` is written, none where the address does not exist (R53). No address is protected
(R59). -/
def Memory.write (m : Memory) (a : Nat) (b : Byte) : Option Memory := if a < Config.memSize then some (m.put a b) else none

/-- `MemRead(a, 1)` (R52). -/
def memRead (s : State) (a : Nat) (k : Byte → Result) : Result :=
  match s.mem.read a with
  | some b => k b
  | none => raise (.outOfBoundsMemory a) s

/-- `MemWrite(a, 1, b)` (R53). -/
def memWrite (a : Nat) (b : Byte) (s : State) : Result :=
  match s.mem.write a b with
  | some m => .next (s.setMem m)
  | none => raise (.outOfBoundsMemory a) s

/-- Byte writes at `a`, `a + 1`, … in ascending order; the one that faults leaves the earlier ones performed (R56, R65). -/
def memWriteAll : Nat → List Byte → State → Result
  | _, [], s => .next s
  | a, b :: bs, s => andThen (memWrite a b s) (memWriteAll (a + 1) bs)

/-- Byte reads at `a`, `a + 1`, … in ascending order, or the first address that does not exist (R56, R130). -/
def readBytes (m : Memory) : Nat → Nat → Except Nat (List Byte)
  | _, 0 => .ok []
  | a, n + 1 =>
    match m.read a with
    | none => .error a
    | some b =>
      match readBytes m (a + 1) n with
      | .error e => .error e
      | .ok bs => .ok (b :: bs)

/-- `V[r] <- MemRead(a + r, 1)` for the registers `r` of a list in its order; the read that faults leaves the earlier
registers loaded (R56, R154). -/
def loadRegsFrom (a : Nat) : List Reg → State → Result
  | [], s => .next s
  | r :: rs, s => memRead s (a + r.val) fun b => loadRegsFrom a rs (s.setV r b)

/-- `Fetch()` (R73): two byte reads at PC and PC + 1, high byte first, then PC moves past the word. A fault leaves PC where
it was. -/
def fetch (s : State) (k : Word → State → Result) : Result :=
  memRead s s.pc.toNat fun hi =>
    memRead s (s.pc.toNat + 1) fun lo =>
      k (hi ++ lo) (s.setPc (s.pc + 2))

/-- An instruction word stored at address `a`, high byte first (R54). -/
def State.placeWord (s : State) (a : Nat) (w : Word) : State :=
  s.setMem ((s.mem.put a (w.extractLsb' 8 8)).put (a + 1) (w.extractLsb' 0 8))

/-! ### Call stack -/

/-- `Push(a)` (R26). The spec's test is `SP == 16`; above 16, which no run reaches (R24), the model overflows too (log
entry 3). -/
def push (a : Word) (s : State) : Result :=
  if h : s.sp.toNat < 16 then .next (s.setStack (s.sp + 1) (s.stk.set s.sp.toNat a))
  else raise (.stackOverflow a) s

/-- `Pop()` (R27): decrement in 8 bits, then validate; an entry that is popped is not cleared (R25). -/
def pop (s : State) (k : Word → State → Result) : Result :=
  if h : (s.sp - 1).toNat < 16 then k s.stk[(s.sp - 1).toNat] (s.setStack (s.sp - 1) s.stk)
  else raise .stackUnderflow s

/-! ### Skips and keys -/

/-- The skip: PC moves past one more word (R104). -/
def skipIf (c : Bool) (s : State) : Result := .next (if c then s.setPc (s.pc + 2) else s)

/-- `IsPressed(k)` (R142): the level of key `k`, a fault where no such key exists. -/
def isPressed (s : State) (k : Byte) (cont : Bool → Result) : Result :=
  if h : k.toNat < 16 then cont s.key[k.toNat] else raise (.keyIndexOutOfRange k) s

/-- The least key that is pressed, if any is (R147). -/
def leastPressed (s : State) : Option (Fin 16) := (List.finRange 16).find? fun k => s.key[k]

/-! ### Display -/

/-- `FB[y][x]` (R30). -/
def Display.pixel (d : Display) (x : Fin 64) (y : Fin 32) : Bool := d[y][x]

/-- `FB[y][x] <- FB[y][x] ^ 1` (R132). -/
def Display.toggle (d : Display) (x : Fin 64) (y : Fin 32) : Display := d.set y (d[y].set x (!d[y][x]))

/-- The bit of a sprite byte at `bit_index` c, which is bit 7 - c: the most significant bit is the leftmost pixel (R131). -/
def spriteBit (b : Byte) (c : Nat) : Bool := b.getLsbD (7 - c)

/-- The column a sprite's bit goes to (R132). -/
def column (ox c : Nat) : Fin 64 := Fin.ofNat 64 (ox + c)

/-- The row a sprite's byte goes to (R132). -/
def rowOf (oy r : Nat) : Fin 32 := Fin.ofNat 32 (oy + r)

/-- One pixel of a sprite: nothing where the sprite's bit is 0, else an XOR with 1, with the collision recorded where the
pixel goes from on to off (R132). -/
def drawPixel (x : Fin 64) (y : Fin 32) (on : Bool) (p : Display × Bool) : Display × Bool :=
  if on then (p.1.toggle x y, p.2 || p.1.pixel x y) else p

/-- One row of a sprite, eight pixels each wrapped on its own (R132). -/
def drawRow (ox : Nat) (y : Fin 32) (b : Byte) (p : Display × Bool) : Display × Bool :=
  (List.range 8).foldl (fun p c => drawPixel (column ox c) y (spriteBit b c) p) p

/-- The rows of a sprite from row number `r` on (R132). -/
def drawRows (ox oy : Nat) : Nat → List Byte → Display × Bool → Display × Bool
  | _, [], p => p
  | r, b :: bs, p => drawRows ox oy (r + 1) bs (drawRow ox (rowOf oy r) b p)

/-- `DrawSprite(ox, oy, s, n)` with its collision result (R132). -/
def drawSprite (ox oy : Nat) (sprite : List Byte) (d : Display) : Display × Bool :=
  drawRows ox oy 0 sprite (d, false)

/-! ### The random input -/

/-- The byte `rnd` of this step (R127): what the host has supplied, else the next byte of the free stream. -/
def State.rnd (s : State) : Byte := s.rndIn.headD (Config.rndStream s.draws)

/-- The state after `rnd` has been consumed. -/
def State.useRnd (s : State) : State :=
  match s.rndIn with
  | _ :: rest => s.setRnd rest s.draws
  | [] => s.setRnd [] (s.draws + 1)

end Sys2Proof.Machine
end

