-- ==== Sys2Proof/Machine/Flags.lean ====
section
/-! DEFINITION. The values of the one flag, VF, and the order in which a result and the flag are written
(spec/10_state.md R21, spec/44_alu.md R119). -/

namespace Sys2Proof.Machine

/-- The flag value: 0x01 or 0x00 (R21, R119 (c)). -/
def flagByte (c : Bool) : Byte := if c then 0x01 else 0x00

/-- The carry of `8XY4`: the exact sum is above 255 (R114). -/
def carryFlag (a b : Byte) : Byte := flagByte (decide (a.toNat + b.toNat > 255))

/-- NOT borrow of `a - b` (R115, R117). -/
def notBorrowFlag (a b : Byte) : Byte := flagByte (decide (a.toNat ≥ b.toNat))

/-- The bit `8XY6` shifts out (R116). -/
def lsbFlag (a : Byte) : Byte := flagByte (a.getLsbD 0)

/-- The bit `8XYE` shifts out (R118). -/
def msbFlag (a : Byte) : Byte := flagByte (a.getLsbD 7)

/-- The result to Vx, then the flag to VF: "VF is always the last register written" (R119 (b)). -/
def writeThenFlag (x : Reg) (result flag : Byte) (s : State) : State := (s.setV x result).setV VF flag

end Sys2Proof.Machine
end

