-- ==== Sys2Proof/Machine/Operands.lean ====
section
/-! DEFINITION. The operand forms (spec/30_encoding.md R78): register ranges, the base-plus-offset address, the font
address, the decimal digits, and the two parameters spec/93_implementation_defined.md gives a default (U12, U13). -/

namespace Sys2Proof.Machine

/-- The parameter `SHIFT_USES_VY` of spec/93_implementation_defined.md U12, at its default (R6, D11; log entry 5). -/
def shiftUsesVy : Bool := false

/-- The parameter `LOADSTORE_INCREMENTS_I` of spec/93_implementation_defined.md U13, at its default (R6, D12; log
entry 6). -/
def loadStoreIncrementsI : Bool := false

/-- The operand of `8XY6` and `8XYE`: Vx itself (R116, R118). -/
def shiftOperand (x y : Reg) (s : State) : Byte := if shiftUsesVy then s.getV y else s.getV x

/-- What `FX55` and `FX65` leave in I: I itself (R153, R154). -/
def afterBlock (x : Reg) (s : State) : State :=
  if loadStoreIncrementsI then s.setI (s.i + BitVec.ofNat 16 (x.val + 1)) else s

/-- The registers V0 to Vx, ascending and inclusive (R153, R154). -/
def regsUpTo (x : Reg) : List Reg := (List.finRange 16).take (x.val + 1)

/-- The values of V0 to Vx (R153). -/
def valuesUpTo (x : Reg) (s : State) : List Byte := (regsUpTo x).map s.getV

/-- "Base I plus ascending offset", the one data addressing mode, as an exact integer (R56, R78, R145). -/
def dataAddr (s : State) (k : Nat) : Nat := s.i.toNat + k

/-- The address of the glyph of a digit, the low nibble of a byte (R151). -/
def glyphAddr (b : Byte) : Word := BitVec.ofNat 16 (Config.fontBase + Config.glyphBytes * (b &&& 0x0F).toNat)

/-- The three decimal digits of a byte, the hundreds first (R152). -/
def bcdDigits (b : Byte) : List Byte :=
  [BitVec.ofNat 8 (b.toNat / 100), BitVec.ofNat 8 (b.toNat / 10 % 10), BitVec.ofNat 8 (b.toNat % 10)]

end Sys2Proof.Machine
end

