-- ==== Sys2Proof/Machine/Alu.lean ====
section
/-! DEFINITION. Family 0x8, spec/44_alu.md: both operands are read before a register is written, and the flag is written
last (R119). -/

namespace Sys2Proof.Machine

/-- `8XY0` LD Vx, Vy (R110). -/
def execLdReg (x y : Reg) (s : State) : Result := .next (s.setV x (s.getV y))

/-- `8XY1` OR Vx, Vy; VF is not written (R111). -/
def execOrReg (x y : Reg) (s : State) : Result := .next (s.setV x (s.getV x ||| s.getV y))

/-- `8XY2` AND Vx, Vy; VF is not written (R112). -/
def execAndReg (x y : Reg) (s : State) : Result := .next (s.setV x (s.getV x &&& s.getV y))

/-- `8XY3` XOR Vx, Vy; VF is not written (R113). -/
def execXorReg (x y : Reg) (s : State) : Result := .next (s.setV x (s.getV x ^^^ s.getV y))

/-- `8XY4` ADD Vx, Vy; VF is the carry (R114). -/
def execAddReg (x y : Reg) (s : State) : Result :=
  let a := s.getV x
  let b := s.getV y
  .next (writeThenFlag x (BitVec.ofNat 8 (a.toNat + b.toNat)) (carryFlag a b) s)

/-- `8XY5` SUB Vx, Vy; VF is NOT borrow (R115). -/
def execSubReg (x y : Reg) (s : State) : Result :=
  let a := s.getV x
  let b := s.getV y
  .next (writeThenFlag x (a - b) (notBorrowFlag a b) s)

/-- `8XY6` SHR Vx; VF is the bit shifted out, `y` is not used (R116). -/
def execShr (x y : Reg) (s : State) : Result :=
  let a := shiftOperand x y s
  .next (writeThenFlag x (a >>> 1) (lsbFlag a) s)

/-- `8XY7` SUBN Vx, Vy: Vy - Vx; VF is NOT borrow (R117). -/
def execSubnReg (x y : Reg) (s : State) : Result :=
  let a := s.getV x
  let b := s.getV y
  .next (writeThenFlag x (b - a) (notBorrowFlag b a) s)

/-- `8XYE` SHL Vx; VF is the bit shifted out, `y` is not used (R118). -/
def execShl (x y : Reg) (s : State) : Result :=
  let a := shiftOperand x y s
  .next (writeThenFlag x (a <<< 1) (msbFlag a) s)

end Sys2Proof.Machine
end

