-- ==== Sys2Proof/Machine/ClearReturn.lean ====
section
/-! DEFINITION. Family 0x0, spec/40_family0_clear_return.md. In every meaning the state given has PC at `pc0 + 2`, where
the fetch left it (R73). -/

namespace Sys2Proof.Machine

/-- `00E0` CLS: every pixel off (R90). -/
def execCls (s : State) : Result := .next (s.setFb Display.blank)

/-- `00EE` RET: PC from the stack (R91). -/
def execRet (s : State) : Result := pop s fun a s' => .next (s'.setPc a)

end Sys2Proof.Machine
end

