-- ==== Sys2Proof/Machine/Draw.lean ====
section
/-! DEFINITION. Family 0xD, spec/46_draw.md. -/

namespace Sys2Proof.Machine

/-- `DXYN` DRW Vx, Vy, n (R130): all the sprite's bytes are read before the display is touched; VF, the collision, is
written last. -/
def execDrw (x y : Reg) (n : Fin 16) (s : State) : Result :=
  match readBytes s.mem (dataAddr s 0) n.val with
  | .error a => raise (.outOfBoundsMemory a) s
  | .ok sprite =>
    let p := drawSprite (s.getV x).toNat (s.getV y).toNat sprite s.fb
    .next ((s.setFb p.1).setV VF (flagByte p.2))

end Sys2Proof.Machine
end

