-- ==== Sys2Proof/Machine/FamilyF.lean ====
section
/-! DEFINITION. Family 0xF, spec/48_family_f.md. -/

namespace Sys2Proof.Machine

/-- `FX07` LD Vx, DT (R146). -/
def execLdVxDt (x : Reg) (s : State) : Result := .next (s.setV x s.dt)

/-- `FX0A` LD Vx, K (R147): the least pressed key, else the fetch's advance of PC is undone, so that the state is the one
before the step. -/
def execWaitKey (x : Reg) (s : State) : Result :=
  match leastPressed s with
  | some k => .next (s.setV x (BitVec.ofNat 8 k.val))
  | none => .next (s.setPc (s.pc - 2))

/-- `FX15` LD DT, Vx (R148). -/
def execLdDtVx (x : Reg) (s : State) : Result := .next (s.setDt (s.getV x))

/-- `FX18` LD ST, Vx (R149). -/
def execLdStVx (x : Reg) (s : State) : Result := .next (s.setSt (s.getV x))

/-- `FX1E` ADD I, Vx: modulo 65536, VF is not written (R150). -/
def execAddI (x : Reg) (s : State) : Result :=
  .next (s.setI (BitVec.ofNat 16 (s.i.toNat + (zext16 (s.getV x)).toNat)))

/-- `FX29` LD F, Vx (R151). -/
def execLdFont (x : Reg) (s : State) : Result := .next (s.setI (glyphAddr (s.getV x)))

/-- `FX33` LD B, Vx (R152). -/
def execBcd (x : Reg) (s : State) : Result := memWriteAll (dataAddr s 0) (bcdDigits (s.getV x)) s

/-- `FX55` LD [I], Vx (R153). -/
def execStoreRegs (x : Reg) (s : State) : Result :=
  andThen (memWriteAll (dataAddr s 0) (valuesUpTo x s) s) fun s' => .next (afterBlock x s')

/-- `FX65` LD Vx, [I] (R154). -/
def execLoadRegs (x : Reg) (s : State) : Result :=
  andThen (loadRegsFrom (dataAddr s 0) (regsUpTo x) s) fun s' => .next (afterBlock x s')

end Sys2Proof.Machine
end

