-- ==== Sys2Proof/Machine/IndexJumpRandom.lean ====
section
/-! DEFINITION. Families 0xA, 0xB and 0xC, spec/45_index_jump_random.md. -/

namespace Sys2Proof.Machine

/-- `ANNN` LD I, nnn (R125). -/
def execLdI (nnn : Addr12) (s : State) : Result := .next (s.setI (zext16 nnn))

/-- `BNNN` JP V0, nnn: the sum is not masked to 12 bits (R126). -/
def execJpV0 (nnn : Addr12) (s : State) : Result := .next (s.setPc (zext16 nnn + zext16 (s.getV 0)))

/-- `CXNN` RND Vx, nn: the random byte under the mask (R127). -/
def execRnd (x : Reg) (nn : Byte) (s : State) : Result := .next (s.useRnd.setV x (s.rnd &&& nn))

end Sys2Proof.Machine
end

