-- ==== Sys2Proof/Machine/JumpCall.lean ====
section
/-! DEFINITION. Families 0x1 and 0x2, spec/41_jump_call.md. -/

namespace Sys2Proof.Machine

/-- `1NNN` JP nnn (R95). -/
def execJp (nnn : Addr12) (s : State) : Result := .next (s.setPc (zext16 nnn))

/-- `2NNN` CALL nnn: the address after the call is pushed, then PC is set (R96). -/
def execCall (nnn : Addr12) (s : State) : Result := andThen (push s.pc s) fun s' => .next (s'.setPc (zext16 nnn))

end Sys2Proof.Machine
end

