-- ==== Sys2Proof/Machine/KeySkip.lean ====
section
/-! DEFINITION. Family 0xE, spec/47_key_skip.md. -/

namespace Sys2Proof.Machine

/-- `EX9E` SKP Vx (R140). -/
def execSkp (x : Reg) (s : State) : Result := isPressed s (s.getV x) fun p => skipIf p s

/-- `EXA1` SKNP Vx (R141). -/
def execSknp (x : Reg) (s : State) : Result := isPressed s (s.getV x) fun p => skipIf (!p) s

end Sys2Proof.Machine
end

