-- ==== Sys2Proof/Machine/LoadAddImm.lean ====
section
/-! DEFINITION. Families 0x6 and 0x7, spec/43_load_add_immediate.md. -/

namespace Sys2Proof.Machine

/-- `6XNN` LD Vx, nn (R105). -/
def execLdImm (x : Reg) (nn : Byte) (s : State) : Result := .next (s.setV x nn)

/-- `7XNN` ADD Vx, nn: modulo 256, VF is not written (R106). -/
def execAddImm (x : Reg) (nn : Byte) (s : State) : Result :=
  .next (s.setV x (BitVec.ofNat 8 ((s.getV x).toNat + nn.toNat)))

end Sys2Proof.Machine
end

