-- ==== Sys2Proof/Machine/Skip.lean ====
section
/-! DEFINITION. Families 0x3, 0x4, 0x5 and 0x9, spec/42_skip.md. -/

namespace Sys2Proof.Machine

/-- `3XNN` SE Vx, nn (R100). -/
def execSeImm (x : Reg) (nn : Byte) (s : State) : Result := skipIf (s.getV x == nn) s

/-- `4XNN` SNE Vx, nn (R101). -/
def execSneImm (x : Reg) (nn : Byte) (s : State) : Result := skipIf (s.getV x != nn) s

/-- `5XY0` SE Vx, Vy (R102). -/
def execSeReg (x y : Reg) (s : State) : Result := skipIf (s.getV x == s.getV y) s

/-- `9XY0` SNE Vx, Vy (R103). -/
def execSneReg (x y : Reg) (s : State) : Result := skipIf (s.getV x != s.getV y) s

end Sys2Proof.Machine
end

