-- ==== Sys2Proof/Machine/Step.lean ====
section
/-! DEFINITION. The `step` transaction of spec/30_encoding.md R74, and the placing of an instruction where the next step
fetches. -/

namespace Sys2Proof.Machine

/-- `step` (R74): fetch, decode, execute; a word that matches no row raises `InvalidOpcode` with PC past it (R75, R177).
The step input `rnd` is `State.rnd` (log entry 2); `Waiting` is a next state equal to the one before (R10, R147). -/
def step (s : State) : Host.Outcome State Fault Refusal :=
  fetch s fun w s' =>
    match decode w with
    | .ok i => exec i s'
    | .error _ => raise (.invalidOpcode w) s'

/-- The state with one instruction word stored at PC, high byte first, so that the next step runs it. Where no word can be
fetched at PC (PC at 4095 or above), PC is first set to where programs are loaded. The model's way for the host to place an
instruction; it stands for `load_program` (R65; log entry 7). -/
def State.withFetchWord (s : State) (nbits w : Nat) : State :=
  if s.pc.toNat + 1 < Config.memSize then s.placeWord s.pc.toNat (tableWord nbits w)
  else (s.setPc 0x0200).placeWord Config.progBase (tableWord nbits w)

end Sys2Proof.Machine
end

