-- ==== Sys2Proof/Machine/Transactions.lean ====
section
/-! DEFINITION. The block's whole interface (spec/10_state.md R34): `reset`, `load_program`, `step(rnd)`, `tick_timers`,
`set_key` and the observations, each atomic (R35), and the report a step gives its caller (R10). The order of transactions
and the byte each step gets are the host's, so a run is a list of transactions (R35, R209). -/

namespace Sys2Proof.Machine

/-- The five kinds of fault (R170). -/
inductive FaultKind where
  | outOfBoundsMemory | stackOverflow | stackUnderflow | invalidOpcode | keyIndexOutOfRange
  deriving DecidableEq, Repr

/-- The kind of a fault (R170). -/
def Fault.kind : Fault → FaultKind
  | .outOfBoundsMemory _ _ => .outOfBoundsMemory
  | .stackOverflow _ _ => .stackOverflow
  | .stackUnderflow _ => .stackUnderflow
  | .invalidOpcode _ _ => .invalidOpcode
  | .keyIndexOutOfRange _ _ => .keyIndexOutOfRange

/-- What the host can see of a machine between two transactions (R38). -/
structure Observation where
  fb : Display
  dt : Byte
  st : Byte
  soundOn : Bool
  deriving DecidableEq, Repr

/-- The result of a transaction (R10, R34). -/
inductive Report where
  /-- A transaction of the host that has no result, or a program load without a fault. -/
  | done
  /-- A step that executed one instruction. -/
  | completed
  /-- A step of `FX0A` with no key pressed; the state is unchanged. -/
  | waiting
  /-- A fault, with its recorded value. -/
  | faulted (kind : FaultKind) (info : Option Nat)
  /-- What an observation returns. -/
  | observed (o : Observation)
  /-- No step gives it: every instruction has its meaning. -/
  | refused (r : Refusal)
  deriving DecidableEq, Repr

/-- The transactions of the block (R34). The key index is a 4-bit input (R37). -/
inductive Transaction where
  | reset
  | loadProgram (bytes : List Byte)
  | step (rnd : Byte)
  | tickTimers
  | setKey (index : Fin 16) (pressed : Bool)
  | observe
  deriving DecidableEq, Repr

/-- `tick_timers()`: DT and ST each one less, floored at 0 (R184). -/
def tickTimers (s : State) : State :=
  let s' := if s.dt = 0 then s else s.setDt (s.dt - 1)
  if s.st = 0 then s' else s'.setSt (s.st - 1)

/-- `set_key(index, pressed)` (R37). -/
def setKey (index : Fin 16) (pressed : Bool) (s : State) : State := s.setKeys (s.key.set index pressed)

/-- `load_program(b)`: byte writes from 0x200 up through the checked write path (R65). -/
def loadProgram (bytes : List Byte) (s : State) : Result := memWriteAll Config.progBase bytes s

/-- The derived output `sound_on` (R38, R186). -/
def soundOn (s : State) : Bool := decide (s.st.toNat > 0)

/-- The observations (R38). -/
def observe (s : State) : Observation := { fb := s.fb, dt := s.dt, st := s.st, soundOn := soundOn s }

/-- The instruction the next step will run, none where the step will fault before it runs one. -/
def nextInstr (s : State) : Option Instr :=
  match s.mem.read s.pc.toNat, s.mem.read (s.pc.toNat + 1) with
  | some hi, some lo =>
    match decode (wordOfBytes hi lo) with
    | .ok i => some i
    | .error _ => none
  | _, _ => none

/-- Whether the next step will be `Waiting`: it runs `FX0A` and no key is pressed (R147). -/
def waiting (s : State) : Bool :=
  match nextInstr s with
  | some (.waitKey _) => (leastPressed s).isNone
  | _ => false

/-- A result of a host transaction or of an operation, as the state it leaves and its report. After a fault the machine
goes on from the state the fault leaves (R177, R182). -/
def settle (ok : Report) (s : State) : Result → State × Report
  | .next s' => (s', ok)
  | .fault f => (f.after, .faulted f.kind f.info)
  | .refused r => (s, .refused r)

/-- `step(rnd)` (R74): the step with the byte `rnd` at its random input, which is gone after the step whether it was used
or not. -/
def stepWith (rnd : Byte) (s : State) : State × Report :=
  let p := settle (if waiting s then .waiting else .completed) s (step (s.setRnd [rnd] s.draws))
  (p.1.setRnd s.rndIn s.draws, p.2)

/-- One transaction (R34). -/
def transact (t : Transaction) (s : State) : State × Report :=
  match t with
  | .reset => (State.reset, .done)
  | .loadProgram bytes => settle .done s (loadProgram bytes s)
  | .step rnd => stepWith rnd s
  | .tickTimers => (tickTimers s, .done)
  | .setKey index pressed => (setKey index pressed s, .done)
  | .observe => (s, .observed (observe s))

/-- A sequence of transactions, with the reports they give (R35). -/
def transactAll : List Transaction → State → State × List Report
  | [], s => (s, [])
  | t :: ts, s =>
    let p := transact t s
    let q := transactAll ts p.1
    (q.1, p.2 :: q.2)

end Sys2Proof.Machine
end

