-- ==== Sys2Proof/Safety.lean ====
section
/-! DEFINITION. What a safe run is, in the terms statements use: the invariant of spec/10_state.md R40, reachability by the
transactions of R34, runs without a fault (spec/70_reset_and_hazards.md R211), the end of a run (R204), and the vocabulary of
frames: the parts of the state, and which of them an instruction may change. -/

namespace Sys2Proof.Machine

/-! ### Invariant and runs -/

/-- The invariant of R24, R29 and R40: the memory is in canonical form; SP is at most 16; PC is at most 0x10FE; every live
entry of the stack is at most 0x1000. It says nothing of I, V, DT, ST or the display, which can hold any value (R40 (d)). -/
structure State.Inv (s : State) : Prop where
  mem_wf : s.mem.wf = true
  sp_le : s.sp.toNat ≤ 16
  pc_le : s.pc.toNat ≤ 0x10FE
  stk_le : ∀ k : Fin 16, k.val < s.sp.toNat → s.stk[k].toNat ≤ 0x1000

/-- A state some sequence of transactions leads to from reset (R40). -/
def Reachable (s : State) : Prop := ∃ ts : List Transaction, (transactAll ts State.reset).1 = s

/-- A report that is a fault. -/
def Report.isFault : Report → Bool
  | .faulted _ _ => true
  | .refused _ => true
  | _ => false

/-- A run of transactions in which nothing faults: what a proof about a program takes as its premise or its conclusion
(R211). -/
def SafeRun (ts : List Transaction) (s : State) : Prop := ∀ r ∈ (transactAll ts s).2, r.isFault = false

/-- The end of a run in the sense of R204: the next instruction is a jump to its own address. A definition of the model's;
the machine itself never stops (log entry 11). -/
def Stopped (s : State) : Prop := ∃ nnn : Addr12, nextInstr s = some (.jp nnn) ∧ zext16 nnn = s.pc

/-! ### Frames -/

/-- The parts of the state. -/
inductive Part where
  | v | i | pc | sp | stk | dt | st | mem | fb | key | rnd
  deriving DecidableEq, Repr

/-- That a part is the same in two states. Memory is compared through the read of one byte, at every address; registers,
stack entries, keys and pixels one by one. -/
def Part.same : Part → State → State → Prop
  | .v, s, t => ∀ r : Reg, t.getV r = s.getV r
  | .i, s, t => t.i = s.i
  | .pc, s, t => t.pc = s.pc
  | .sp, s, t => t.sp = s.sp
  | .stk, s, t => ∀ k : Fin 16, t.stk[k] = s.stk[k]
  | .dt, s, t => t.dt = s.dt
  | .st, s, t => t.st = s.st
  | .mem, s, t => ∀ a : Nat, t.mem.read a = s.mem.read a
  | .fb, s, t => ∀ (x : Fin 64) (y : Fin 32), t.fb.pixel x y = s.fb.pixel x y
  | .key, s, t => ∀ k : Fin 16, t.key[k] = s.key[k]
  | .rnd, s, t => t.rndIn = s.rndIn ∧ t.draws = s.draws

/-- Every part of the state but the ones listed is the same before (`s`) and after (`t`). -/
def sameOutside (ps : List Part) (s t : State) : Prop := ∀ p : Part, p ∉ ps → p.same s t

/-- Every register but the ones listed is the same before and after. -/
def regsOutside (rs : List Reg) (s t : State) : Prop := ∀ r : Reg, r ∉ rs → t.getV r = s.getV r

/-- The encoding of an instruction: every word on the row of `mask` and `pattern` decodes to the instruction `f` reads from
the word's fields (R71, R75, R76). The places of `x` and `y` and the sub-opcodes of family 0x8, and `n = 0` in `5XY0` and
`9XY0`, are the spec's decision D38 (log entry 9). -/
def OnRow (mask pattern : Word) (f : Word → Instr) : Prop := ∀ w : Word, w &&& mask = pattern → decode w = .ok (f w)

/-- The pixel (`px`, `py`) is under a 1 bit of the sprite drawn at the origin (`ox`, `oy`) (R132). -/
def Covers (ox oy : Nat) (sprite : List Byte) (px : Fin 64) (py : Fin 32) : Prop :=
  ∃ (r c : Nat) (b : Byte), sprite[r]? = some b ∧ c < 8 ∧ b.getLsbD (7 - c) = true ∧
    (ox + c) % 64 = px.val ∧ (oy + r) % 32 = py.val

end Sys2Proof.Machine

namespace Sys2Proof

open Sys2Proof.Machine

/-- The parts of the state an instruction may change when it completes, PC left aside: R20 to R31 say which instructions
write each. -/
def Instr.writes : Instr → List Part
  | .cls => [.fb]
  | .ret => [.sp]
  | .call _ => [.sp, .stk]
  | .ldImm _ _ | .addImm _ _ | .ldReg _ _ | .orReg _ _ | .andReg _ _ | .xorReg _ _ | .addReg _ _ | .subReg _ _ => [.v]
  | .shr _ _ | .subnReg _ _ | .shl _ _ | .ldVxDt _ | .waitKey _ | .loadRegs _ => [.v]
  | .ldI _ | .addI _ | .ldFont _ => [.i]
  | .rnd _ _ => [.v, .rnd]
  | .drw _ _ _ => [.v, .fb]
  | .ldDtVx _ => [.dt]
  | .ldStVx _ => [.st]
  | .bcd _ | .storeRegs _ => [.mem]
  | .jp _ | .jpV0 _ | .seImm _ _ | .sneImm _ _ | .seReg _ _ | .sneReg _ _ | .skp _ | .sknp _ => []

/-- The general registers an instruction may change when it completes (R20, R21). -/
def Instr.writesRegs : Instr → List Reg
  | .ldImm x _ | .addImm x _ | .ldReg x _ | .orReg x _ | .andReg x _ | .xorReg x _ | .rnd x _ => [x]
  | .addReg x _ | .subReg x _ | .shr x _ | .subnReg x _ | .shl x _ => [x, VF]
  | .ldVxDt x | .waitKey x => [x]
  | .drw _ _ _ => [VF]
  | .loadRegs x => regsUpTo x
  | .cls | .ret | .jp _ | .call _ | .seImm _ _ | .sneImm _ _ | .seReg _ _ | .sneReg _ _ | .ldI _ | .jpV0 _ => []
  | .skp _ | .sknp _ | .ldDtVx _ | .ldStVx _ | .addI _ | .ldFont _ | .bcd _ | .storeRegs _ => []

/-- The addresses an instruction stores to, by the address the meanings use, `dataAddr` (R29, R152, R153). -/
def Instr.storesTo : Instr → State → Nat → Prop
  | .bcd _, s, a => dataAddr s 0 ≤ a ∧ a ≤ dataAddr s 2
  | .storeRegs x, s, a => dataAddr s 0 ≤ a ∧ a ≤ dataAddr s x.val
  | _, _, _ => False

/-- The stack entries an instruction may change: the one at SP, by a call (R25, R26). -/
def Instr.pushesTo : Instr → State → Fin 16 → Prop
  | .call _, s, k => k.val = s.sp.toNat
  | _, _, _ => False

/-- The pixels an instruction may change: all of them by a clear, the sprite's 8 columns and `n` rows by a draw (R90,
R132). -/
def Instr.drawsTo : Instr → State → Fin 64 → Fin 32 → Prop
  | .cls, _, _, _ => True
  | .drw x y n, s, px, py =>
    ∃ r < n.val, ∃ c < 8, ((s.getV x).toNat + c) % 64 = px.val ∧ ((s.getV y).toNat + r) % 32 = py.val
  | _, _, _, _ => False

/-- When an instruction's own accesses leave the address space (R171 (b) to (d)). -/
def Instr.accessFaults : Instr → State → Prop
  | .drw _ _ n, s => 0 < n.val ∧ 4096 ≤ s.i.toNat + n.val - 1
  | .bcd _, s => 4096 ≤ s.i.toNat + 2
  | .storeRegs x, s => 4096 ≤ s.i.toNat + x.val
  | .loadRegs x, s => 4096 ≤ s.i.toNat + x.val
  | _, _ => False

/-- When an instruction names a key that does not exist (R142, R175). -/
def Instr.keyFaults : Instr → State → Prop
  | .skp x, s => 15 < (s.getV x).toNat
  | .sknp x, s => 15 < (s.getV x).toNat
  | _, _ => False

end Sys2Proof
end

