-- ==== Sys2Proof/Certificates/Slice0/Obligations.lean ====
section
/-! DEFINITION. The statements for the provers. In a statement about `exec` the state `s` is the one the instruction
executes in: its PC is `pc0 + 2`, where the fetch left it (spec/30_encoding.md R73), so "PC is left at `pc0 + 2`" reads
"PC is the same". `StepRunsTheDecodedInstruction` ties these statements to a step. -/

open Sys2Proof Sys2Proof.Machine

/-! ### Encoding -/

/-- R70 to R76: decoding the word, or the two bytes in memory order, of any instruction gives the instruction back, with
every operand at every value of its field, and consumes exactly two bytes. -/
def Obligations.DecodeOfEncodeIsTheInstruction : Prop :=
  ∀ (i : Instr) (rest : List Byte), decode (encode i) = .ok i ∧ decodeBytes (encodeBytes i ++ rest) = .ok (i, rest)

/-- R75, R76: a legal word is the word of the instruction it decodes to, so no bit of a word is dropped. -/
def Obligations.EncodeOfDecodeIsTheWord : Prop :=
  ∀ (w : Word) (i : Instr), decode w = .ok i → encode i = w

/-- R75, R76, R77 (with decisions D4, D5, D38, log entry 9): the decoder agrees with the opcode table. A word decodes to
an instruction exactly where some row covers it, and then to one whose row covers it; every other word is
`InvalidOpcode`; no word is covered by two rows. -/
def Obligations.DecodeSelectsTheUniqueRow : Prop :=
  (∀ (w : Word) (i : Instr), decode w = .ok i → i.row ∈ opcodeTable ∧ i.row.covers w = true) ∧
  (∀ w : Word, wordLegal w = true → ∃ i, decode w = .ok i) ∧
  (∀ w : Word, wordLegal w = false → decode w = .error (.invalidOpcode w)) ∧
  (∀ (w : Word) (r r' : OpRow), r ∈ opcodeTable → r' ∈ opcodeTable → r.covers w = true → r'.covers w = true → r = r')

/-- R77 (with decisions D4, D5, D38, log entry 9): the illegal words, family by family. -/
def Obligations.IllegalWordsAreTheListed : Prop :=
  ∀ w : Word, decode w = .error (.invalidOpcode w) ↔
    (opOf w = 0x0 ∧ w ≠ 0x00E0 ∧ w ≠ 0x00EE) ∨
    (opOf w = 0x5 ∧ nOf w ≠ 0) ∨
    (opOf w = 0x8 ∧ (nOf w).val ∈ [0x8, 0x9, 0xA, 0xB, 0xC, 0xD, 0xF]) ∨
    (opOf w = 0x9 ∧ nOf w ≠ 0) ∨
    (opOf w = 0xE ∧ (nnOf w).toNat ∉ [0x9E, 0xA1]) ∨
    (opOf w = 0xF ∧ (nnOf w).toNat ∉ [0x07, 0x0A, 0x15, 0x18, 0x1E, 0x29, 0x33, 0x55, 0x65])

/-- R71, R76, R77: some words of the spec's examples, written out from the patterns, decode to what they stand for. That
0x0000 is illegal is the spec's decision D5, and the places of the fields are D38 (log entry 9). -/
def Obligations.SampleWordsDecode : Prop :=
  decode 0x6005 = .ok (.ldImm 0 0x05) ∧ decode 0x2300 = .ok (.call 0x300) ∧ decode 0x8124 = .ok (.addReg 1 2) ∧
  decode 0xD012 = .ok (.drw 0 1 2) ∧ decode 0xE1A1 = .ok (.sknp 1) ∧ decode 0xF265 = .ok (.loadRegs 2) ∧
  decode 0x0000 = .error (.invalidOpcode 0x0000)

/-! ### The step -/

/-- R54, R73, R74 (with decision D6, log entry 9: whatever the parity of PC): where the two bytes at PC and PC + 1 exist
and, read high byte first, decode to `i`, the step is `exec` of `i` in the state with PC moved past the word. -/
def Obligations.StepRunsTheDecodedInstruction : Prop :=
  ∀ (s : State) (hi lo : Byte) (w : Word) (i : Instr),
    s.mem.read s.pc.toNat = some hi → s.mem.read (s.pc.toNat + 1) = some lo →
    w.toNat = hi.toNat * 256 + lo.toNat → decode w = .ok i → step s = exec i (s.setPc (s.pc + 2))

/-- R73, R177 (with decisions D3 and D7, log entries 9 and 8): a fetch at 4095 or above faults with the first address
that does not exist, and nothing has changed. -/
def Obligations.FetchOutsideMemoryFaults : Prop :=
  ∀ s : State, 4095 ≤ s.pc.toNat → step s = .fault (.outOfBoundsMemory (max s.pc.toNat 4096) s)

/-- R174, R177 (with decisions D3 to D5, log entry 9, and D7, log entry 8): a word that stands on no row is
`InvalidOpcode`, with PC past the word and nothing else changed. -/
def Obligations.IllegalWordFaults : Prop :=
  ∀ (s : State) (hi lo : Byte) (w : Word),
    s.mem.read s.pc.toNat = some hi → s.mem.read (s.pc.toNat + 1) = some lo →
    w.toNat = hi.toNat * 256 + lo.toNat → wordLegal w = false →
    step s = .fault (.invalidOpcode w (s.setPc (s.pc + 2)))

/-- R74, R82: an instruction placed where the step fetches is the one the step runs, in any state whose memory is in
canonical form. The placing, `withFetchWord`, is the model's own choice (log entry 7), and so is the address 0x0200 it
takes where PC is 4095 or above, which gives the 0x0202. -/
def Obligations.PlacedWordRuns : Prop :=
  ∀ (s : State) (i : Instr), s.mem.wf = true →
    ∃ t : State, step (s.withFetchWord 16 (encode i).toNat) = exec i t ∧ sameOutside [.pc, .mem] s t ∧
      (s.pc.toNat < 4095 → t.pc = s.pc + 2) ∧ (4095 ≤ s.pc.toNat → t.pc = 0x0202)

/-- R76, R79: no instruction and no step is refused; every one completes, waits or faults. -/
def Obligations.NothingIsRefused : Prop :=
  (∀ (i : Instr) (s : State) (q : Refusal), exec i s ≠ .refused q) ∧
  (∀ (s : State) (q : Refusal), step s ≠ .refused q)

/-- R204 (with decision D37, log entry 11): in a state whose next instruction is a jump to its own address a step
completes and changes nothing. -/
def Obligations.JumpToItselfIsAFixedPoint : Prop :=
  ∀ (s : State) (r : Byte), Stopped s → step s = .next s ∧ stepWith r s = (s, .completed)

/-- R10, R147, R180 (with decisions D2, D15, D17, log entry 9): the step of a machine that waits leaves the state as it
was and reports `Waiting`; no other step reports it. -/
def Obligations.WaitingStepChangesNothing : Prop :=
  ∀ (s : State) (r : Byte), (waiting s = true → step s = .next s ∧ stepWith r s = (s, .waiting)) ∧
    ((stepWith r s).2 = .waiting → waiting s = true)

/-- R176, R177 (with decisions D7 to D10, log entry 8): what a step that faults leaves. A fault of the fetch changes
nothing; any other fault leaves PC past the instruction, and no other part of the state has changed but registers
(`FX65`) or memory (`FX33`, `FX55`). R10, R170, R182 (with decisions D2, D3, log entries 8 and 9): the transaction
`step(rnd)` reports the fault with its kind and recorded value, whatever the random byte, and the machine is left in
that state, from which it goes on; it reports a fault only where the step faults. -/
def Obligations.FaultLeavesPcPastTheInstruction : Prop :=
  (∀ (s : State) (f : Fault), step s = .fault f →
    (4095 ≤ s.pc.toNat ∧ f.after = s) ∨
    (s.pc.toNat < 4095 ∧ f.after.pc = s.pc + 2 ∧ sameOutside [.pc, .v, .mem] s f.after ∧
      ((∀ x, nextInstr s ≠ some (.loadRegs x)) → Part.same .v s f.after) ∧
      ((∀ x, nextInstr s ≠ some (.bcd x) ∧ nextInstr s ≠ some (.storeRegs x)) → Part.same .mem s f.after))) ∧
  (∀ (s : State) (r : Byte),
    (∀ a t, step s = .fault (.outOfBoundsMemory a t) → stepWith r s = (t, .faulted .outOfBoundsMemory (some a))) ∧
    (∀ w t, step s = .fault (.stackOverflow w t) → stepWith r s = (t, .faulted .stackOverflow (some w.toNat))) ∧
    (∀ t, step s = .fault (.stackUnderflow t) → stepWith r s = (t, .faulted .stackUnderflow none)) ∧
    (∀ w t, step s = .fault (.invalidOpcode w t) → stepWith r s = (t, .faulted .invalidOpcode (some w.toNat))) ∧
    (∀ k t, step s = .fault (.keyIndexOutOfRange k t) →
      stepWith r s = (t, .faulted .keyIndexOutOfRange (some k.toNat))) ∧
    ((stepWith r s).2.isFault = true → ∃ f, step s = .fault f))

/-! ### Invariants and whole-machine rules -/

/-- R39: the state after reset meets the invariant of R40. -/
def Obligations.ResetMeetsTheInvariant : Prop := State.reset.Inv

/-- R24, R29, R40 (a) to (c): every step keeps the invariant, from every state that meets it, whether the step ends in a
next state or in a fault. -/
def Obligations.EveryStepKeepsTheInvariant : Prop :=
  ∀ s : State, s.Inv → (∀ t, step s = .next t → t.Inv) ∧ (∀ f, step s = .fault f → f.after.Inv)

/-- R34, R40: every transaction of the interface, with any inputs and from every state that meets the invariant, leaves
a state that meets it: the reset, the program load (also one that faults), the step with any random byte, the tick, the
key event and the observation. -/
def Obligations.EveryTransactionKeepsTheInvariant : Prop :=
  ∀ (t : Transaction) (s : State), s.Inv → (transact t s).1.Inv

/-- R34, R40: every state the transactions of the interface lead to from reset, in any order and with any inputs, meets
the invariant. -/
def Obligations.ReachableStatesMeetTheInvariant : Prop := ∀ s : State, Reachable s → s.Inv

/-- R29, R60: two memories in canonical form that read alike at every address are equal data. -/
def Obligations.MemoriesThatReadAlikeAreEqual : Prop :=
  ∀ m m' : Memory, m.wf = true → m'.wf = true → (∀ a, m.read a = m'.read a) → m = m'

/-- R20 to R31: an instruction that completes changes no part of the state but the ones the rules say it writes, no
register but its destinations, no byte of memory but the ones it stores to, no stack entry but the one it pushes, and no
pixel outside its sprite: only `2NNN` and `00EE` change SP, only `00E0` and `DXYN` the display, no instruction the keys,
and so on. That `FX55` and `FX65` leave I is the spec's decision D12 (log entry 6); that `8XY0` to `8XY3` and `FX1E`
leave VF, and that a pop leaves the stack's entries, are D13 and D35 (log entry 9). -/
def Obligations.InstructionsWriteOnlyTheirParts : Prop :=
  ∀ (i : Instr) (s t : State), exec i s = .next t →
    sameOutside (.pc :: i.writes) s t ∧ regsOutside i.writesRegs s t ∧
    (∀ a, ¬ i.storesTo s a → t.mem.read a = s.mem.read a) ∧
    (∀ k, ¬ i.pushesTo s k → t.stk[k] = s.stk[k]) ∧
    (∀ px py, ¬ i.drawsTo s px py → t.fb.pixel px py = s.fb.pixel px py)

/-- R23: where PC is after an instruction that completes: where the fetch left it, but for taken skips, jumps, calls,
returns and the wait for a key. That the sum of `BNNN` is exact is the spec's decision D33; that the wait looks at the
level of the keys and puts PC back is D15 and D17 (log entry 9). -/
def Obligations.PcAfterCompletion : Prop :=
  ∀ (i : Instr) (s t : State), exec i s = .next t →
    match i with
    | .jp nnn | .call nnn => t.pc.toNat = nnn.toNat
    | .jpV0 nnn => t.pc.toNat = nnn.toNat + (s.getV 0).toNat
    | .ret => ∃ k : Fin 16, s.sp.toNat = k.val + 1 ∧ t.pc = s.stk[k]
    | .seImm _ _ | .sneImm _ _ | .seReg _ _ | .sneReg _ _ | .skp _ | .sknp _ => t.pc = s.pc ∨ t.pc = s.pc + 2
    | .waitKey _ => t.pc = if (∃ k : Fin 16, s.key[k] = true) then s.pc else s.pc - 2
    | _ => t.pc = s.pc

/-- R28, R30: ST and the display cannot be read by an instruction, but for the collision result of `DXYN`. Two states
that differ in ST only, or in the display only, go on alike in everything else, VF after `DXYN` excepted: they complete
in states alike, or they fault alike, with the same kind and recorded value and in states alike. -/
def Obligations.SoundTimerAndDisplayAreNotReadable : Prop :=
  (∀ (i : Instr) (s t : State) (b : Byte), exec i s = .next t →
    ∃ u, exec i (s.setSt b) = .next u ∧ sameOutside [.st] t u) ∧
  (∀ (i : Instr) (s t : State) (d : Display), exec i s = .next t → (∀ x y n, i ≠ .drw x y n) →
    ∃ u, exec i (s.setFb d) = .next u ∧ sameOutside [.fb] t u) ∧
  (∀ (x y : Reg) (n : Fin 16) (s t : State) (d : Display), exec (.drw x y n) s = .next t →
    ∃ u, exec (.drw x y n) (s.setFb d) = .next u ∧ sameOutside [.fb, .v] t u ∧ regsOutside [VF] t u) ∧
  (∀ (i : Instr) (s : State) (f : Fault) (b : Byte), exec i s = .fault f →
    ∃ g, exec i (s.setSt b) = .fault g ∧ g.kind = f.kind ∧ g.info = f.info ∧ sameOutside [.st] f.after g.after) ∧
  (∀ (i : Instr) (s : State) (f : Fault) (d : Display), exec i s = .fault f →
    ∃ g, exec i (s.setFb d) = .fault g ∧ g.kind = f.kind ∧ g.info = f.info ∧ sameOutside [.fb] f.after g.after)

/-- R74, R127 (with decision D22, log entry 2): a step reads its random input only when the instruction is `CXNN`. -/
def Obligations.OnlyRndReadsTheRandomInput : Prop :=
  ∀ (s : State) (r r' : Byte), (∀ x nn, nextInstr s ≠ some (.rnd x nn)) → stepWith r s = stepWith r' s

/-! ### Faults -/

/-- R171: exactly when an access outside memory is reported: at the fetch when PC is 4095 or more; by `DXYN`, `FX33`,
`FX55` and `FX65` when their last byte is at 4096 or above; by a program load of more than 3584 bytes; by nothing else.
That the load has the fault is the spec's decision D25 (log entry 10), that a draw of 0 bytes has none is D34 (log entry
9). -/
def Obligations.MemoryFaultsExactlyWhen : Prop :=
  (∀ (i : Instr) (s : State), (∃ a t, exec i s = .fault (.outOfBoundsMemory a t)) ↔ i.accessFaults s) ∧
  (∀ s : State, (∃ a t, step s = .fault (.outOfBoundsMemory a t)) ↔
    4095 ≤ s.pc.toNat ∨ ∃ i, nextInstr s = some i ∧ i.accessFaults (s.setPc (s.pc + 2))) ∧
  (∀ (bytes : List Byte) (s : State),
    (∃ a t, loadProgram bytes s = .fault (.outOfBoundsMemory a t)) ↔ 3584 < bytes.length)

/-- R172, R173, R175 (with decisions D3 and D14, log entry 9, and D7 and D10, log entry 8): exactly when the other
faults of the execute phase are raised, for SP in its range, and that they leave the state as the fetch left it. -/
def Obligations.StackAndKeyFaultsExactlyWhen : Prop :=
  ∀ (i : Instr) (s : State), s.sp.toNat ≤ 16 →
    (∀ v t, exec i s = .fault (.stackOverflow v t) ↔ (∃ nnn, i = .call nnn) ∧ s.sp.toNat = 16 ∧ v = s.pc ∧ t = s) ∧
    (∀ t, exec i s = .fault (.stackUnderflow t) ↔ i = .ret ∧ s.sp.toNat = 0 ∧ t = s) ∧
    ((∃ k t, exec i s = .fault (.keyIndexOutOfRange k t)) ↔ i.keyFaults s) ∧
    (∀ k t, exec i s = .fault (.keyIndexOutOfRange k t) → t = s) ∧
    (∀ w t, exec i s ≠ .fault (.invalidOpcode w t))

/-! ### Memory and reset -/

/-- R52, R53: at an address below 4096 a read gives the byte there, a write succeeds, the byte written is the byte read,
and every other address reads as before; at any other address the write and the read fault with the address and change
nothing. -/
def Obligations.MemoryWriteThenRead : Prop :=
  (∀ (s : State) (a : Nat), a < 4096 → ∃ b, s.mem.read a = some b ∧ ∀ k, memRead s a k = k b) ∧
  (∀ (s : State) (a : Nat) (b : Byte), s.mem.wf = true → a < 4096 →
    ∃ t, memWrite a b s = .next t ∧ sameOutside [.mem] s t ∧ (∀ k, memRead t a k = k b) ∧
      (∀ c, c ≠ a → t.mem.read c = s.mem.read c)) ∧
  (∀ (s : State) (a : Nat) (b : Byte), 4096 ≤ a → memWrite a b s = .fault (.outOfBoundsMemory a s)) ∧
  (∀ (s : State) (a : Nat) (k : Byte → Result), 4096 ≤ a → memRead s a k = .fault (.outOfBoundsMemory a s))

/-- R29, R64: the memory after reset: the font at 0x000 to 0x04F, zero up to 0xFFF, and nothing at 4096 or above. The
bytes of the font are the default of the parameter `FONT` (decision D23, log entry 4). -/
def Obligations.MemoryAfterReset : Prop :=
  font.length = 80 ∧
  (∀ a < 80, State.reset.mem.read a = font[a]?) ∧
  (∀ a, 80 ≤ a → a < 4096 → State.reset.mem.read a = some 0x00) ∧
  (∀ a, 4096 ≤ a → State.reset.mem.read a = none)

/-- R39, R200, R202: the registers and the memory after reset, and that `reset` gives this state whatever the state
before: a loaded program is gone and the font is there again. PC and memory are the source's values and SP follows from
them; the other zeros are the spec's decision D20 and what reset covers is D21 (log entry 1); the bytes of the font are
D23 (log entry 4). -/
def Obligations.ResetValues : Prop :=
  ∀ s : State, ∃ t, transact .reset s = (t, .done) ∧ t.pc = 0x0200 ∧ t.sp = 0 ∧ t.i = 0 ∧ t.dt = 0 ∧ t.st = 0 ∧
    (∀ r, t.getV r = 0) ∧ (∀ k : Fin 16, t.stk[k] = 0) ∧ (∀ k : Fin 16, t.key[k] = false) ∧
    (∀ x y, t.fb.pixel x y = false) ∧
    font.length = 80 ∧ (∀ a < 80, t.mem.read a = font[a]?) ∧ (∀ a, 80 ≤ a → a < 4096 → t.mem.read a = some 0x00) ∧
    (∀ a, 4096 ≤ a → t.mem.read a = none) ∧ t = State.reset

/-! ### Families 0x0 to 0x7 and 0x9 -/

/-- R90. -/
def Obligations.ClearTurnsEveryPixelOff : Prop :=
  OnRow 0xFFFF 0x00E0 (fun _ => .cls) ∧
  ∀ s : State, ∃ t, exec .cls s = .next t ∧ (∀ x y, t.fb.pixel x y = false) ∧ sameOutside [.fb] s t

/-- R91: SP from 1 to 16 pops the entry below it into PC and clears nothing (D35, log entry 9); SP = 0 is
`StackUnderflow` with nothing changed since the fetch, which is the spec's decisions D7 and D10 (log entry 8). -/
def Obligations.ReturnPopsThePc : Prop :=
  OnRow 0xFFFF 0x00EE (fun _ => .ret) ∧
  (∀ (s : State) (k : Fin 16), s.sp.toNat = k.val + 1 →
    ∃ t, exec .ret s = .next t ∧ t.pc = s.stk[k] ∧ t.sp.toNat = k.val ∧ sameOutside [.pc, .sp] s t) ∧
  (∀ s : State, s.sp.toNat = 0 → exec .ret s = .fault (.stackUnderflow s))

/-- R95. -/
def Obligations.JumpSetsThePc : Prop :=
  OnRow 0xF000 0x1000 (fun w => .jp (nnnOf w)) ∧
  ∀ (nnn : Addr12) (s : State), ∃ t, exec (.jp nnn) s = .next t ∧ t.pc.toNat = nnn.toNat ∧ sameOutside [.pc] s t

/-- R96: SP from 0 to 15 pushes PC, which is the address after the call, and jumps; SP = 16 is `StackOverflow` with the
address that could not be pushed (decision D3, log entry 9) and nothing changed since the fetch (D7 and D10, log entry
8). -/
def Obligations.CallPushesTheReturnAddress : Prop :=
  OnRow 0xF000 0x2000 (fun w => .call (nnnOf w)) ∧
  (∀ (nnn : Addr12) (s : State) (k : Fin 16), s.sp.toNat = k.val →
    ∃ t, exec (.call nnn) s = .next t ∧ t.stk[k] = s.pc ∧ (∀ j : Fin 16, j ≠ k → t.stk[j] = s.stk[j]) ∧
      t.sp.toNat = k.val + 1 ∧ t.pc.toNat = nnn.toNat ∧ sameOutside [.pc, .sp, .stk] s t) ∧
  (∀ (nnn : Addr12) (s : State), s.sp.toNat = 16 → exec (.call nnn) s = .fault (.stackOverflow s.pc s))

/-- R91, R96: a call and, in any state with the stack the call left, the return after it: PC is the address after the
call and SP is what it was (the source's scenario, spec/95_test_vectors.md S7). -/
def Obligations.ReturnUndoesTheCall : Prop :=
  ∀ (nnn : Addr12) (s : State), s.sp.toNat < 16 →
    ∃ t, exec (.call nnn) s = .next t ∧
      ∀ t' : State, t'.sp = t.sp → (∀ k : Fin 16, t'.stk[k] = t.stk[k]) →
        ∃ u, exec .ret t' = .next u ∧ u.pc = s.pc ∧ u.sp = s.sp ∧
          (∀ k : Fin 16, k.val < s.sp.toNat → u.stk[k] = s.stk[k]) ∧ sameOutside [.pc, .sp] t' u

/-- R100, R101. -/
def Obligations.SkipsOnImmediates : Prop :=
  OnRow 0xF000 0x3000 (fun w => .seImm (xOf w) (nnOf w)) ∧ OnRow 0xF000 0x4000 (fun w => .sneImm (xOf w) (nnOf w)) ∧
  ∀ (x : Reg) (nn : Byte) (s : State),
    (∃ t, exec (.seImm x nn) s = .next t ∧ t.pc = (if s.getV x = nn then s.pc + 2 else s.pc) ∧ sameOutside [.pc] s t) ∧
    (∃ t, exec (.sneImm x nn) s = .next t ∧ t.pc = (if s.getV x = nn then s.pc else s.pc + 2) ∧ sameOutside [.pc] s t)

/-- R102, R103. That the low nibble is 0 is the spec's decision D38 (log entry 9; `OnRow`). -/
def Obligations.SkipsOnRegisters : Prop :=
  OnRow 0xF00F 0x5000 (fun w => .seReg (xOf w) (yOf w)) ∧ OnRow 0xF00F 0x9000 (fun w => .sneReg (xOf w) (yOf w)) ∧
  ∀ (x y : Reg) (s : State),
    (∃ t, exec (.seReg x y) s = .next t ∧ t.pc = (if s.getV x = s.getV y then s.pc + 2 else s.pc) ∧
      sameOutside [.pc] s t) ∧
    (∃ t, exec (.sneReg x y) s = .next t ∧ t.pc = (if s.getV x = s.getV y then s.pc else s.pc + 2) ∧
      sameOutside [.pc] s t)

/-- R105: for every register, VF included, and nothing but that register changes. -/
def Obligations.LoadImmediateSetsVx : Prop :=
  OnRow 0xF000 0x6000 (fun w => .ldImm (xOf w) (nnOf w)) ∧
  ∀ (x : Reg) (nn : Byte) (s : State),
    ∃ t, exec (.ldImm x nn) s = .next t ∧ t.getV x = nn ∧ regsOutside [x] s t ∧ sameOutside [.v] s t

/-- R106: modulo 256, with no carry: VF changes only where it is the destination. -/
def Obligations.AddImmediateWrapsWithoutCarry : Prop :=
  OnRow 0xF000 0x7000 (fun w => .addImm (xOf w) (nnOf w)) ∧
  ∀ (x : Reg) (nn : Byte) (s : State),
    ∃ t, exec (.addImm x nn) s = .next t ∧ (t.getV x).toNat = ((s.getV x).toNat + nn.toNat) % 256 ∧
      regsOutside [x] s t ∧ sameOutside [.v] s t

/-! ### Family 0x8 -/

/-- R110. That VF is not written is the spec's decision D13 (R119 (d)), and sub-opcode 0 is D38 (R119 (e)) (log entry
9). -/
def Obligations.AssignCopiesVy : Prop :=
  OnRow 0xF00F 0x8000 (fun w => .ldReg (xOf w) (yOf w)) ∧
  ∀ (x y : Reg) (s : State),
    ∃ t, exec (.ldReg x y) s = .next t ∧ t.getV x = s.getV y ∧ regsOutside [x] s t ∧ sameOutside [.v] s t

/-- R111, R112, R113, bit by bit; that VF is not written is the spec's decision D13 (R119 (d)), and the sub-opcodes are
D38 (R119 (e)) (log entry 9). -/
def Obligations.LogicOperationsLeaveVf : Prop :=
  OnRow 0xF00F 0x8001 (fun w => .orReg (xOf w) (yOf w)) ∧ OnRow 0xF00F 0x8002 (fun w => .andReg (xOf w) (yOf w)) ∧
  OnRow 0xF00F 0x8003 (fun w => .xorReg (xOf w) (yOf w)) ∧
  ∀ (x y : Reg) (s : State),
    (∃ t, exec (.orReg x y) s = .next t ∧
      (∀ b, (t.getV x).getLsbD b = ((s.getV x).getLsbD b || (s.getV y).getLsbD b)) ∧
      regsOutside [x] s t ∧ sameOutside [.v] s t) ∧
    (∃ t, exec (.andReg x y) s = .next t ∧
      (∀ b, (t.getV x).getLsbD b = ((s.getV x).getLsbD b && (s.getV y).getLsbD b)) ∧
      regsOutside [x] s t ∧ sameOutside [.v] s t) ∧
    (∃ t, exec (.xorReg x y) s = .next t ∧
      (∀ b, (t.getV x).getLsbD b = ((s.getV x).getLsbD b ^^ (s.getV y).getLsbD b)) ∧
      regsOutside [x] s t ∧ sameOutside [.v] s t)

/-- R114: the exact sum modulo 256 in Vx and the carry in VF, written last: where Vx is VF the flag stays. -/
def Obligations.AddSetsVfToTheCarry : Prop :=
  OnRow 0xF00F 0x8004 (fun w => .addReg (xOf w) (yOf w)) ∧
  ∀ (x y : Reg) (s : State),
    ∃ t, exec (.addReg x y) s = .next t ∧
      t.getV VF = (if (s.getV x).toNat + (s.getV y).toNat > 255 then 0x01 else 0x00) ∧
      (x ≠ VF → (t.getV x).toNat = ((s.getV x).toNat + (s.getV y).toNat) % 256) ∧
      regsOutside [x, VF] s t ∧ sameOutside [.v] s t

/-- R115: Vx - Vy modulo 256 in Vx and NOT borrow in VF, written last. -/
def Obligations.SubtractSetsVfToNotBorrow : Prop :=
  OnRow 0xF00F 0x8005 (fun w => .subReg (xOf w) (yOf w)) ∧
  ∀ (x y : Reg) (s : State),
    ∃ t, exec (.subReg x y) s = .next t ∧
      t.getV VF = (if (s.getV x).toNat ≥ (s.getV y).toNat then 0x01 else 0x00) ∧
      (x ≠ VF → ((t.getV x).toNat : Int) = (((s.getV x).toNat : Int) - (s.getV y).toNat) % 256) ∧
      regsOutside [x, VF] s t ∧ sameOutside [.v] s t

/-- R117: Vy - Vx. What `SUBN` computes is the spec's decision D30 (log entry 9). -/
def Obligations.ReverseSubtractSetsVfToNotBorrow : Prop :=
  OnRow 0xF00F 0x8007 (fun w => .subnReg (xOf w) (yOf w)) ∧
  ∀ (x y : Reg) (s : State),
    ∃ t, exec (.subnReg x y) s = .next t ∧
      t.getV VF = (if (s.getV y).toNat ≥ (s.getV x).toNat then 0x01 else 0x00) ∧
      (x ≠ VF → ((t.getV x).toNat : Int) = (((s.getV y).toNat : Int) - (s.getV x).toNat) % 256) ∧
      regsOutside [x, VF] s t ∧ sameOutside [.v] s t

/-- R116, R118: Vx shifted in place, VF the bit shifted out, whatever `y` is. That Vx is the operand is the spec's
decision D11 (log entry 5). -/
def Obligations.ShiftsSetVfToTheBitShiftedOut : Prop :=
  OnRow 0xF00F 0x8006 (fun w => .shr (xOf w) (yOf w)) ∧ OnRow 0xF00F 0x800E (fun w => .shl (xOf w) (yOf w)) ∧
  ∀ (x y : Reg) (s : State),
    (∃ t, exec (.shr x y) s = .next t ∧ (t.getV VF).toNat = (s.getV x).toNat % 2 ∧
      (x ≠ VF → (t.getV x).toNat = (s.getV x).toNat / 2) ∧ regsOutside [x, VF] s t ∧ sameOutside [.v] s t) ∧
    (∃ t, exec (.shl x y) s = .next t ∧ (t.getV VF).toNat = (s.getV x).toNat / 128 ∧
      (x ≠ VF → (t.getV x).toNat = (s.getV x).toNat * 2 % 256) ∧ regsOutside [x, VF] s t ∧ sameOutside [.v] s t)

/-! ### Families 0xA, 0xB, 0xC -/

/-- R125. -/
def Obligations.SetIndexZeroExtends : Prop :=
  OnRow 0xF000 0xA000 (fun w => .ldI (nnnOf w)) ∧
  ∀ (nnn : Addr12) (s : State), ∃ t, exec (.ldI nnn) s = .next t ∧ t.i.toNat = nnn.toNat ∧ sameOutside [.i] s t

/-- R126: the exact sum. That it is not masked to 12 bits is the spec's decision D33 (log entry 9). -/
def Obligations.IndexedJumpAddsV0 : Prop :=
  OnRow 0xF000 0xB000 (fun w => .jpV0 (nnnOf w)) ∧
  ∀ (nnn : Addr12) (s : State),
    ∃ t, exec (.jpV0 nnn) s = .next t ∧ t.pc.toNat = nnn.toNat + (s.getV 0).toNat ∧ sameOutside [.pc] s t

/-- R127: a byte the host has supplied is used and gone; without one, the byte is the next of the free stream, about
which nothing is known (decision D22, log entry 2); and as a transaction, with any byte at the step's input. -/
def Obligations.RandomByteUnderTheMask : Prop :=
  OnRow 0xF000 0xC000 (fun w => .rnd (xOf w) (nnOf w)) ∧
  (∀ (x : Reg) (nn r : Byte) (rest : List Byte) (s : State), s.rndIn = r :: rest →
    ∃ t, exec (.rnd x nn) s = .next t ∧ t.getV x = r &&& nn ∧ t.rndIn = rest ∧ t.draws = s.draws ∧
      regsOutside [x] s t ∧ sameOutside [.v, .rnd] s t) ∧
  (∀ (x : Reg) (nn : Byte) (s : State), s.rndIn = [] →
    ∃ t, exec (.rnd x nn) s = .next t ∧ t.getV x = Config.rndStream s.draws &&& nn ∧ t.rndIn = [] ∧
      t.draws = s.draws + 1 ∧ regsOutside [x] s t ∧ sameOutside [.v, .rnd] s t) ∧
  (∀ (x : Reg) (nn r : Byte) (s : State), nextInstr s = some (.rnd x nn) →
    ∃ t, stepWith r s = (t, .completed) ∧ t.getV x = r &&& nn ∧ t.pc = s.pc + 2 ∧ regsOutside [x] s t ∧
      sameOutside [.v, .pc] s t)

/-! ### Family 0xD -/

/-- R132: `DrawSprite`, pixel by pixel: each pixel under a 1 bit of the sprite, each wrapped on its own, changes, no
other does, and the result is whether one of them was on. That bit 7 of a sprite's byte is its leftmost pixel (`Covers`)
is the spec's decision D24 (R131, log entry 9). -/
def Obligations.DrawSpriteXorsEveryPixel : Prop :=
  ∀ (ox oy : Byte) (sprite : List Byte) (d : Display), sprite.length ≤ 15 →
    (∀ px py, (drawSprite ox.toNat oy.toNat sprite d).1.pixel px py = true ↔
      ¬ (d.pixel px py = true ↔ Covers ox.toNat oy.toNat sprite px py)) ∧
    ((drawSprite ox.toNat oy.toNat sprite d).2 = true ↔
      ∃ px py, Covers ox.toNat oy.toNat sprite px py ∧ d.pixel px py = true)

/-- R130, R133, R177 (with decisions D7 and D9, log entry 8, and D3, D24 and D34, log entry 9): where the sprite's bytes
all exist, or `n` is 0, the draw completes: the display as `DrawSprite` leaves it for the bytes at I and the origin in
Vx and Vy as they were, VF the collision, nothing else changed. Where one does not exist, the first such address is
reported and nothing is drawn. -/
def Obligations.DrawUsesTheBytesAtIndex : Prop :=
  OnRow 0xF000 0xD000 (fun w => .drw (xOf w) (yOf w) (nOf w)) ∧
  (∀ (x y : Reg) (n : Fin 16) (s : State), (n.val = 0 ∨ s.i.toNat + n.val ≤ 4096) →
    ∃ (t : State) (sprite : List Byte), exec (.drw x y n) s = .next t ∧ sprite.length = n.val ∧
      (∀ r < n.val, sprite[r]? = s.mem.read (dataAddr s r)) ∧
      (∀ px py, t.fb.pixel px py = true ↔
        ¬ (s.fb.pixel px py = true ↔ Covers (s.getV x).toNat (s.getV y).toNat sprite px py)) ∧
      (t.getV VF = 0x00 ∨ t.getV VF = 0x01) ∧
      (t.getV VF = 0x01 ↔
        ∃ px py, Covers (s.getV x).toNat (s.getV y).toNat sprite px py ∧ s.fb.pixel px py = true) ∧
      regsOutside [VF] s t ∧ sameOutside [.v, .fb] s t) ∧
  (∀ (x y : Reg) (n : Fin 16) (s : State), n.val ≠ 0 → 4096 < s.i.toNat + n.val →
    exec (.drw x y n) s = .fault (.outOfBoundsMemory (max s.i.toNat 4096) s))

/-- The source's display property (spec/95_test_vectors.md S3, quoted in R130): drawing the same sprite twice at the
same origin restores the display, and from a blank display the second draw reports a collision where the sprite has a 1
bit. The coordinates are not in VF, which the first draw overwrites. -/
def Obligations.DrawingTwiceRestoresTheDisplay : Prop :=
  ∀ (x y : Reg) (n : Fin 16) (s : State), x ≠ VF → y ≠ VF → (n.val = 0 ∨ s.i.toNat + n.val ≤ 4096) →
    ∃ t u, exec (.drw x y n) s = .next t ∧ exec (.drw x y n) t = .next u ∧
      (∀ px py, u.fb.pixel px py = s.fb.pixel px py) ∧
      ((∀ px py, s.fb.pixel px py = false) → (∃ r < n.val, ∃ b, s.mem.read (dataAddr s r) = some b ∧ b ≠ 0) →
        t.getV VF = 0x00 ∧ u.getV VF = 0x01)

/-! ### Family 0xE -/

/-- R140, R141, R142: for an index in range the skip is on the key's level; for any other index both fault with the
index and nothing changes, which is the spec's decisions D3 and D14 (log entry 9) and D7 (log entry 8). -/
def Obligations.KeySkipsReadTheKeyLevel : Prop :=
  OnRow 0xF0FF 0xE09E (fun w => .skp (xOf w)) ∧ OnRow 0xF0FF 0xE0A1 (fun w => .sknp (xOf w)) ∧
  (∀ (x : Reg) (s : State) (k : Fin 16), (s.getV x).toNat = k.val →
    (∃ t, exec (.skp x) s = .next t ∧ t.pc = (if s.key[k] = true then s.pc + 2 else s.pc) ∧ sameOutside [.pc] s t) ∧
    (∃ t, exec (.sknp x) s = .next t ∧ t.pc = (if s.key[k] = true then s.pc else s.pc + 2) ∧ sameOutside [.pc] s t)) ∧
  (∀ (x : Reg) (s : State), 15 < (s.getV x).toNat →
    exec (.skp x) s = .fault (.keyIndexOutOfRange (s.getV x) s) ∧
    exec (.sknp x) s = .fault (.keyIndexOutOfRange (s.getV x) s))

/-! ### Family 0xF -/

/-- R146, R148, R149, with the derived output `sound_on` of R149. -/
def Obligations.TimersAreReadAndSet : Prop :=
  OnRow 0xF0FF 0xF007 (fun w => .ldVxDt (xOf w)) ∧ OnRow 0xF0FF 0xF015 (fun w => .ldDtVx (xOf w)) ∧
  OnRow 0xF0FF 0xF018 (fun w => .ldStVx (xOf w)) ∧
  ∀ (x : Reg) (s : State),
    (∃ t, exec (.ldVxDt x) s = .next t ∧ t.getV x = s.dt ∧ regsOutside [x] s t ∧ sameOutside [.v] s t) ∧
    (∃ t, exec (.ldDtVx x) s = .next t ∧ t.dt = s.getV x ∧ sameOutside [.dt] s t) ∧
    (∃ t, exec (.ldStVx x) s = .next t ∧ t.st = s.getV x ∧ (soundOn t = true ↔ s.getV x ≠ 0) ∧ sameOutside [.st] s t)

/-- R147 (with decisions D15, D16, D17, log entry 9): with a key pressed, the least index in Vx; with none, PC back at
the instruction and nothing else changed. -/
def Obligations.WaitForKeyTakesTheLeastKey : Prop :=
  OnRow 0xF0FF 0xF00A (fun w => .waitKey (xOf w)) ∧
  (∀ (x : Reg) (s : State) (k : Fin 16), s.key[k] = true → (∀ j : Fin 16, j < k → s.key[j] = false) →
    ∃ t, exec (.waitKey x) s = .next t ∧ (t.getV x).toNat = k.val ∧ regsOutside [x] s t ∧ sameOutside [.v] s t) ∧
  (∀ (x : Reg) (s : State), (∀ k : Fin 16, s.key[k] = false) →
    ∃ t, exec (.waitKey x) s = .next t ∧ t.pc = s.pc - 2 ∧ sameOutside [.pc] s t)

/-- R150: modulo 65536. That VF is not written and I not masked to 12 bits are the spec's decisions D13 and D19 (log
entry 9). -/
def Obligations.AddToIndexWrapsAt16Bits : Prop :=
  OnRow 0xF0FF 0xF01E (fun w => .addI (xOf w)) ∧
  ∀ (x : Reg) (s : State),
    ∃ t, exec (.addI x) s = .next t ∧ t.i.toNat = (s.i.toNat + (s.getV x).toNat) % 65536 ∧ sameOutside [.i] s t

/-- R151: five times the digit, the glyphs in ascending order (general knowledge, log entry 4); that only the low nibble
of Vx counts is the spec's decision D18 (log entry 9). -/
def Obligations.FontAddressIsFiveTimesTheDigit : Prop :=
  OnRow 0xF0FF 0xF029 (fun w => .ldFont (xOf w)) ∧
  ∀ (x : Reg) (s : State),
    ∃ t, exec (.ldFont x) s = .next t ∧ t.i.toNat = 5 * ((s.getV x).toNat % 16) ∧ sameOutside [.i] s t

/-- R152: three decimal digits, the hundreds at I (the order is general knowledge, decision D31, log entry 9), and no
other byte changes. -/
def Obligations.BcdStoresThreeDigits : Prop :=
  OnRow 0xF0FF 0xF033 (fun w => .bcd (xOf w)) ∧
  ∀ (x : Reg) (s : State), s.mem.wf = true → dataAddr s 2 < 4096 →
    ∃ (t : State) (h e o : Byte), exec (.bcd x) s = .next t ∧
      t.mem.read (dataAddr s 0) = some h ∧ t.mem.read (dataAddr s 1) = some e ∧ t.mem.read (dataAddr s 2) = some o ∧
      100 * h.toNat + 10 * e.toNat + o.toNat = (s.getV x).toNat ∧ e.toNat ≤ 9 ∧ o.toNat ≤ 9 ∧
      (∀ a, a < dataAddr s 0 ∨ dataAddr s 2 < a → t.mem.read a = s.mem.read a) ∧ sameOutside [.mem] s t

/-- R153: V0 to Vx at I and up, x + 1 bytes, and no other byte changes. That I is unchanged is the spec's decision D12
(log entry 6). -/
def Obligations.StoreRegistersAtIndex : Prop :=
  OnRow 0xF0FF 0xF055 (fun w => .storeRegs (xOf w)) ∧
  ∀ (x : Reg) (s : State), s.mem.wf = true → dataAddr s x.val < 4096 →
    ∃ t, exec (.storeRegs x) s = .next t ∧
      (∀ r : Reg, r ≤ x → t.mem.read (dataAddr s r.val) = some (s.getV r)) ∧
      (∀ a, a < dataAddr s 0 ∨ dataAddr s x.val < a → t.mem.read a = s.mem.read a) ∧ sameOutside [.mem] s t

/-- R154: V0 to Vx from I and up; the registers above Vx, I (decision D12, log entry 6) and memory are unchanged. -/
def Obligations.LoadRegistersFromIndex : Prop :=
  OnRow 0xF0FF 0xF065 (fun w => .loadRegs (xOf w)) ∧
  ∀ (x : Reg) (s : State), dataAddr s x.val < 4096 →
    ∃ t, exec (.loadRegs x) s = .next t ∧
      (∀ r : Reg, r ≤ x → s.mem.read (dataAddr s r.val) = some (t.getV r)) ∧
      (∀ r : Reg, x < r → t.getV r = s.getV r) ∧ sameOutside [.v] s t

/-- R152, R153, R154, R177 (with decisions D3 and D31, log entry 9, and D7 and D8, log entry 8; the hundreds lie at I by
D31): an instruction that leaves memory in the middle of a transfer reports the first address that does not exist, with
the bytes stored or the registers loaded before it, and nothing else changed. -/
def Obligations.TransferFaultKeepsTheEarlierPart : Prop :=
  ∀ (x : Reg) (s : State),
    (s.mem.wf = true → 4096 ≤ dataAddr s 2 → ∃ t, exec (.bcd x) s = .fault (.outOfBoundsMemory (max s.i.toNat 4096) t) ∧
      (dataAddr s 0 < 4096 → t.mem.read (dataAddr s 0) = some (BitVec.ofNat 8 ((s.getV x).toNat / 100))) ∧
      (dataAddr s 1 < 4096 → t.mem.read (dataAddr s 1) = some (BitVec.ofNat 8 ((s.getV x).toNat / 10 % 10))) ∧
      (∀ a, a < dataAddr s 0 → t.mem.read a = s.mem.read a) ∧ sameOutside [.mem] s t) ∧
    (s.mem.wf = true → 4096 ≤ dataAddr s x.val →
      ∃ t, exec (.storeRegs x) s = .fault (.outOfBoundsMemory (max s.i.toNat 4096) t) ∧
        (∀ r : Reg, dataAddr s r.val < 4096 → t.mem.read (dataAddr s r.val) = some (s.getV r)) ∧
        (∀ a, a < dataAddr s 0 → t.mem.read a = s.mem.read a) ∧ sameOutside [.mem] s t) ∧
    (4096 ≤ dataAddr s x.val → ∃ t, exec (.loadRegs x) s = .fault (.outOfBoundsMemory (max s.i.toNat 4096) t) ∧
      (∀ r : Reg, dataAddr s r.val < 4096 → s.mem.read (dataAddr s r.val) = some (t.getV r)) ∧
      (∀ r : Reg, 4096 ≤ dataAddr s r.val → t.getV r = s.getV r) ∧ sameOutside [.v] s t)

/-! ### The host's transactions -/

/-- R37, R38 (with decisions D32, D36, log entry 10): the key named takes the level named and nothing else changes; an
observation returns the display, DT, ST and `sound_on`, and changes nothing. -/
def Obligations.SetKeyAndObserve : Prop :=
  ∀ s : State,
    (∀ (k : Fin 16) (p : Bool), ∃ t, transact (.setKey k p) s = (t, .done) ∧ t.key[k] = p ∧
      (∀ j : Fin 16, j ≠ k → t.key[j] = s.key[j]) ∧ sameOutside [.key] s t) ∧
    (∃ o, transact .observe s = (s, .observed o) ∧ (∀ x y, o.fb.pixel x y = s.fb.pixel x y) ∧ o.dt = s.dt ∧ o.st = s.st ∧
      (o.soundOn = true ↔ 0 < s.st.toNat))

/-- R184: both timers one less, floored at 0, and nothing else changes. -/
def Obligations.TickDecrementsBothTimers : Prop :=
  ∀ s : State, ∃ t, transact .tickTimers s = (t, .done) ∧ t.dt.toNat = s.dt.toNat - 1 ∧ t.st.toNat = s.st.toNat - 1 ∧
    sameOutside [.dt, .st] s t

/-- R65 (with decisions D25, log entry 10, and D3, log entry 9): up to 3584 bytes go to 0x200 and up and nothing else
changes; of a longer program the first 3584 bytes go there and the load faults at 0x1000. -/
def Obligations.ProgramLoadWritesFrom0x200 : Prop :=
  ∀ (bytes : List Byte) (s : State), s.mem.wf = true →
    (bytes.length ≤ 3584 → ∃ t, transact (.loadProgram bytes) s = (t, .done) ∧
      (∀ k b, bytes[k]? = some b → t.mem.read (0x200 + k) = some b) ∧
      (∀ a, a < 0x200 ∨ 0x200 + bytes.length ≤ a → t.mem.read a = s.mem.read a) ∧ sameOutside [.mem] s t) ∧
    (3584 < bytes.length → ∃ t,
      transact (.loadProgram bytes) s = (t, .faulted .outOfBoundsMemory (some 0x1000)) ∧
      (∀ k b, k < 3584 → bytes[k]? = some b → t.mem.read (0x200 + k) = some b) ∧
      (∀ a, a < 0x200 → t.mem.read a = s.mem.read a) ∧ sameOutside [.mem] s t)
end

