-- ==== Sys2Proof/Laws/Decode.lean ====
section
/-! SUPPORT. The fields of an encoded word, and the fields of a word that stands on a row of the opcode table. -/

namespace Sys2Proof

/-! ### Slices of a word put together from two parts -/

theorem slice_low {m n : Nat} (a : BitVec m) (b : BitVec n) {s k : Nat} (h : s + k ≤ n) :
    (a ++ b).extractLsb' s k = b.extractLsb' s k := by
  apply BitVec.eq_of_getElem_eq
  intro j hj
  have : s + j < n := by omega
  simp [BitVec.getElem_extractLsb', BitVec.getLsbD_append, this]

theorem slice_high {m n : Nat} (a : BitVec m) (b : BitVec n) {s k : Nat} (h : n ≤ s) :
    (a ++ b).extractLsb' s k = a.extractLsb' (s - n) k := by
  apply BitVec.eq_of_getElem_eq
  intro j hj
  have h1 : ¬ (s + j < n) := by omega
  have h2 : s + j - n = s - n + j := by omega
  simp [BitVec.getElem_extractLsb', BitVec.getLsbD_append, h1, h2]

theorem slice_self {n : Nat} (a : BitVec n) : a.extractLsb' 0 n = a := by simp

/-! ### The fields of the formats -/

@[simp] theorem opOf_encNNN (op : BitVec 4) (nnn : Addr12) : opOf (encNNN op nnn) = op.toNat :=
  congrArg BitVec.toNat ((slice_high op nnn (s := 12) (k := 4) (by omega)).trans (slice_self op))

@[simp] theorem nnnOf_encNNN (op : BitVec 4) (nnn : Addr12) : nnnOf (encNNN op nnn) = nnn :=
  (slice_low op nnn (s := 0) (k := 12) (by omega)).trans (slice_self nnn)

/-- Format `XNN` is format `NNN` with the twelve low bits in two parts. -/
theorem encXNN_eq (op : BitVec 4) (x : Reg) (nn : Byte) :
    encXNN op x nn = encNNN op ((BitVec.ofFin x : BitVec 4) ++ nn) := rfl

/-- Format `XYN` is format `NNN` with the twelve low bits in three parts. -/
theorem encXYN_eq (op : BitVec 4) (x y : Reg) (n : BitVec 4) :
    encXYN op x y n = encNNN op ((BitVec.ofFin x : BitVec 4) ++ ((BitVec.ofFin y : BitVec 4) ++ n : BitVec 8)) := rfl

@[simp] theorem opOf_encXNN (op : BitVec 4) (x : Reg) (nn : Byte) : opOf (encXNN op x nn) = op.toNat := by
  rw [encXNN_eq, opOf_encNNN]

/-- A field inside the twelve low bits. -/
theorem field_encNNN (op : BitVec 4) (nnn : Addr12) {s k : Nat} (h : s + k ≤ 12) :
    (encNNN op nnn).extractLsb' s k = nnn.extractLsb' s k := slice_low op nnn h

@[simp] theorem xOf_encXNN (op : BitVec 4) (x : Reg) (nn : Byte) : xOf (encXNN op x nn) = x := by
  unfold xOf
  rw [encXNN_eq, field_encNNN _ _ (by omega)]
  exact congrArg BitVec.toFin
    ((slice_high (BitVec.ofFin x : BitVec 4) nn (s := 8) (k := 4) (by omega)).trans (slice_self _))

@[simp] theorem nnOf_encXNN (op : BitVec 4) (x : Reg) (nn : Byte) : nnOf (encXNN op x nn) = nn := by
  unfold nnOf
  rw [encXNN_eq, field_encNNN _ _ (by omega)]
  exact (slice_low (BitVec.ofFin x : BitVec 4) nn (s := 0) (k := 8) (by omega)).trans (slice_self nn)

@[simp] theorem opOf_encXYN (op : BitVec 4) (x y : Reg) (n : BitVec 4) : opOf (encXYN op x y n) = op.toNat := by
  rw [encXYN_eq, opOf_encNNN]

@[simp] theorem xOf_encXYN (op : BitVec 4) (x y : Reg) (n : BitVec 4) : xOf (encXYN op x y n) = x :=
  xOf_encXNN op x _

@[simp] theorem yOf_encXYN (op : BitVec 4) (x y : Reg) (n : BitVec 4) : yOf (encXYN op x y n) = y := by
  unfold yOf
  rw [encXYN_eq, field_encNNN _ _ (by omega)]
  have h1 := slice_low (BitVec.ofFin x : BitVec 4) ((BitVec.ofFin y : BitVec 4) ++ n : BitVec 8) (s := 4) (k := 4)
    (by omega)
  have h2 := slice_high (BitVec.ofFin y : BitVec 4) n (s := 4) (k := 4) (by omega)
  exact congrArg BitVec.toFin (h1.trans (h2.trans (slice_self _)))

@[simp] theorem nOf_encXYN (op : BitVec 4) (x y : Reg) (n : BitVec 4) : nOf (encXYN op x y n) = n.toFin := by
  unfold nOf
  rw [encXYN_eq, field_encNNN _ _ (by omega)]
  have h1 := slice_low (BitVec.ofFin x : BitVec 4) ((BitVec.ofFin y : BitVec 4) ++ n : BitVec 8) (s := 0) (k := 4)
    (by omega)
  have h2 := slice_low (BitVec.ofFin y : BitVec 4) n (s := 0) (k := 4) (by omega)
  exact congrArg BitVec.toFin (h1.trans (h2.trans (slice_self _)))

/-! ### The fields of a word on a row -/

theorem ones_4 : (0xF : BitVec 4) = BitVec.allOnes 4 := by decide

theorem ones_8 : (0xFF : BitVec 8) = BitVec.allOnes 8 := by decide

/-- A mask that keeps a slice does not change it. -/
theorem slice_of_mask {w m p : Word} {s k : Nat} (h : w &&& m = p) (hm : m.extractLsb' s k = BitVec.allOnes k) :
    w.extractLsb' s k = p.extractLsb' s k := by
  rw [← h, BitVec.extractLsb'_and, hm, BitVec.and_allOnes]

theorem opOf_of_mask {w m p : Word} (h : w &&& m = p) (hm : m.extractLsb' 12 4 = 0xF) : opOf w = opOf p :=
  congrArg BitVec.toNat (slice_of_mask h (hm.trans ones_4))

theorem nOf_of_mask {w m p : Word} (h : w &&& m = p) (hm : m.extractLsb' 0 4 = 0xF) : nOf w = nOf p :=
  congrArg BitVec.toFin (slice_of_mask h (hm.trans ones_4))

theorem nnOf_of_mask {w m p : Word} (h : w &&& m = p) (hm : m.extractLsb' 0 8 = 0xFF) : nnOf w = nnOf p :=
  slice_of_mask h (hm.trans ones_8)

/-! ### The two bytes of a word -/

@[simp] theorem highByte_wordOfBytes (hi lo : Byte) : highByte (wordOfBytes hi lo) = hi :=
  (slice_high hi lo (s := 8) (k := 8) (by omega)).trans (slice_self hi)

@[simp] theorem lowByte_wordOfBytes (hi lo : Byte) : lowByte (wordOfBytes hi lo) = lo :=
  (slice_low hi lo (s := 0) (k := 8) (by omega)).trans (slice_self lo)

@[simp] theorem wordOfBytes_high_low (w : Word) : wordOfBytes (highByte w) (lowByte w) = w :=
  (BitVec.extractLsb'_append_extractLsb'_eq_extractLsb' (x := w) (start₂ := 8) (start₁ := 0) (len₁ := 8) (len₂ := 8)
    rfl).trans (slice_self w)

theorem tableWord_16 (w : Nat) : tableWord 16 w = BitVec.ofNat 16 w := by
  unfold tableWord
  apply BitVec.eq_of_toNat_eq
  simp

end Sys2Proof
end

