-- ==== Sys2Proof/Laws/Memory.lean ====
section
/-! SUPPORT. The memory: reads over writes, and that every operation keeps the canonical form. -/

namespace Sys2Proof.Machine

/-! ### The canonical form -/

theorem Memory.wfFrom_cons {lo a : Nat} {b : Byte} {m : Memory} :
    Memory.wfFrom lo ((a, b) :: m) = true ↔
      lo ≤ a ∧ a < 4096 ∧ b ≠ resetByte a ∧ Memory.wfFrom (a + 1) m = true := by
  simp [Memory.wfFrom, and_assoc]

theorem Memory.wfFrom_mono {lo lo' : Nat} {m : Memory} (h : Memory.wfFrom lo m = true) (hl : lo' ≤ lo) :
    Memory.wfFrom lo' m = true := by
  cases m with
  | nil => rfl
  | cons p m =>
    obtain ⟨a, b⟩ := p
    rw [Memory.wfFrom_cons] at h ⊢
    exact ⟨by omega, h.2⟩

/-- Below its first address a canonical memory reads as after reset. -/
theorem Memory.byteAt_of_lt {m : Memory} {lo a : Nat} (h : Memory.wfFrom lo m = true) (ha : a < lo) :
    m.byteAt a = resetByte a := by
  induction m generalizing lo with
  | nil => rfl
  | cons p m ih =>
    obtain ⟨c, d⟩ := p
    rw [Memory.wfFrom_cons] at h
    have hc : c ≠ a := by omega
    simp only [Memory.byteAt, hc, if_false]
    exact ih h.2.2.2 (by omega)

theorem cellOf_append_wfFrom {a : Nat} {b : Byte} {m : Memory} {lo : Nat} (hlo : lo ≤ a) (ha : a < 4096)
    (h : Memory.wfFrom (a + 1) m = true) : Memory.wfFrom lo (cellOf a b ++ m) = true := by
  unfold cellOf
  split
  · exact Memory.wfFrom_mono h (by omega)
  · rename_i hb
    exact Memory.wfFrom_cons.mpr ⟨hlo, ha, hb, h⟩

theorem cellOf_append_byteAt_same {a : Nat} {b : Byte} {m : Memory} (h : Memory.wfFrom (a + 1) m = true) :
    Memory.byteAt (cellOf a b ++ m) a = b := by
  unfold cellOf
  split
  · rename_i hb
    rw [List.nil_append, Memory.byteAt_of_lt h (by omega), hb]
  · simp [Memory.byteAt]

theorem cellOf_append_byteAt_ne {a c : Nat} {b : Byte} {m : Memory} (h : a ≠ c) :
    Memory.byteAt (cellOf a b ++ m) c = m.byteAt c := by
  unfold cellOf
  split
  · rfl
  · simp [Memory.byteAt, h]

/-- A write keeps the canonical form. -/
theorem Memory.put_wfFrom {m : Memory} {lo a : Nat} {b : Byte} (h : Memory.wfFrom lo m = true) (hlo : lo ≤ a)
    (ha : a < 4096) : Memory.wfFrom lo (m.put a b) = true := by
  induction m generalizing lo with
  | nil =>
    have := cellOf_append_wfFrom (b := b) (m := []) hlo ha rfl
    simpa [Memory.put] using this
  | cons p m ih =>
    obtain ⟨c, d⟩ := p
    have hc := Memory.wfFrom_cons.mp h
    unfold Memory.put
    split
    · exact cellOf_append_wfFrom hlo ha (Memory.wfFrom_cons.mpr ⟨by omega, hc.2⟩)
    · split
      · rename_i hac
        exact cellOf_append_wfFrom hlo ha (hac ▸ hc.2.2.2)
      · exact Memory.wfFrom_cons.mpr ⟨hc.1, hc.2.1, hc.2.2.1, ih hc.2.2.2 (by omega)⟩

/-- A write keeps the canonical form. -/
theorem Memory.put_wf {m : Memory} {a : Nat} (b : Byte) (h : m.wf = true) (ha : a < 4096) : (m.put a b).wf = true :=
  Memory.put_wfFrom h (Nat.zero_le _) ha

/-! ### Reads over writes -/

theorem Memory.byteAt_put_same_from {m : Memory} {lo a : Nat} {b : Byte} (h : Memory.wfFrom lo m = true) :
    (m.put a b).byteAt a = b := by
  induction m generalizing lo with
  | nil =>
    have := cellOf_append_byteAt_same (a := a) (b := b) (m := []) rfl
    simpa [Memory.put] using this
  | cons p m ih =>
    obtain ⟨c, d⟩ := p
    have hc := Memory.wfFrom_cons.mp h
    unfold Memory.put
    split
    · exact cellOf_append_byteAt_same (Memory.wfFrom_cons.mpr ⟨by omega, hc.2⟩)
    · split
      · rename_i hac
        exact cellOf_append_byteAt_same (hac ▸ hc.2.2.2)
      · have : c ≠ a := by omega
        simp only [Memory.byteAt, this, if_false]
        exact ih hc.2.2.2

/-- In a canonical memory the byte written is the byte read. -/
theorem Memory.byteAt_put_same {m : Memory} (a : Nat) (b : Byte) (h : m.wf = true) : (m.put a b).byteAt a = b :=
  Memory.byteAt_put_same_from h

/-- A write leaves every other address alone. -/
theorem Memory.byteAt_put_ne (m : Memory) {a c : Nat} (b : Byte) (h : a ≠ c) : (m.put a b).byteAt c = m.byteAt c := by
  induction m with
  | nil => simpa [Memory.put] using cellOf_append_byteAt_ne (m := []) h
  | cons p m ih =>
    obtain ⟨e, d⟩ := p
    unfold Memory.put
    split
    · exact cellOf_append_byteAt_ne h
    · split
      · rename_i hae
        rw [cellOf_append_byteAt_ne h]
        simp [Memory.byteAt, ← hae, h]
      · simp only [Memory.byteAt, ih]

@[simp] theorem Memory.read_lt {m : Memory} {a : Nat} (h : a < 4096) : m.read a = some (m.byteAt a) := by
  simp [Memory.read, h]

@[simp] theorem Memory.read_ge {m : Memory} {a : Nat} (h : 4096 ≤ a) : m.read a = none := by
  simp [Memory.read, Nat.not_lt.mpr h]

theorem Memory.write_lt {m : Memory} {a : Nat} (b : Byte) (h : a < 4096) : m.write a b = some (m.put a b) := by
  simp [Memory.write, h]

theorem Memory.write_ge {m : Memory} {a : Nat} (b : Byte) (h : 4096 ≤ a) : m.write a b = none := by
  simp [Memory.write, Nat.not_lt.mpr h]

/-- A checked write keeps the canonical form. -/
theorem Memory.write_wf {m m' : Memory} {a : Nat} {b : Byte} (h : m.wf = true) (hw : m.write a b = some m') :
    m'.wf = true := by
  unfold Memory.write at hw
  split at hw
  · rename_i ha
    cases hw
    exact Memory.put_wf b h ha
  · cases hw

/-! ### Writing several bytes -/

/-- The bytes of a list written at rising addresses. -/
def Memory.putAll : Memory → Nat → List Byte → Memory
  | m, _, [] => m
  | m, a, b :: bs => Memory.putAll (m.put a b) (a + 1) bs

theorem Memory.putAll_wf {m : Memory} {a : Nat} {bs : List Byte} (h : m.wf = true) (ha : a + bs.length ≤ 4096) :
    (m.putAll a bs).wf = true := by
  induction bs generalizing m a with
  | nil => exact h
  | cons b bs ih =>
    simp only [List.length_cons] at ha
    exact ih (Memory.put_wf b h (by omega)) (by omega)

/-- Outside the bytes written every address reads as before. -/
theorem Memory.byteAt_putAll_outside (m : Memory) {a c : Nat} (bs : List Byte) (h : c < a ∨ a + bs.length ≤ c) :
    (m.putAll a bs).byteAt c = m.byteAt c := by
  induction bs generalizing m a with
  | nil => rfl
  | cons b bs ih =>
    simp only [List.length_cons] at h
    rw [Memory.putAll, ih _ (by omega), Memory.byteAt_put_ne _ _ (by omega)]

/-- The bytes written are the bytes read. -/
theorem Memory.byteAt_putAll_inside {m : Memory} {a : Nat} {bs : List Byte} (h : m.wf = true)
    (ha : a + bs.length ≤ 4096) {k : Nat} (hk : k < bs.length) : (m.putAll a bs).byteAt (a + k) = bs[k] := by
  induction bs generalizing m a k with
  | nil => simp at hk
  | cons b bs ih =>
    simp only [List.length_cons] at ha hk
    rw [Memory.putAll]
    cases k with
    | zero =>
      rw [Memory.byteAt_putAll_outside _ _ (by omega)]
      exact Memory.byteAt_put_same a b h
    | succ k =>
      have := ih (m := m.put a b) (a := a + 1) (Memory.put_wf b h (by omega)) (by omega) (k := k) (by omega)
      rw [show a + (k + 1) = a + 1 + k by omega, this]
      rfl

/-! ### Reading several bytes -/

/-- Reading `n` bytes that all exist gives them in ascending order. -/
theorem readBytes_ok (m : Memory) {a n : Nat} (h : n = 0 ∨ a + n ≤ 4096) :
    readBytes m a n = .ok ((List.range n).map fun k => m.byteAt (a + k)) := by
  induction n generalizing a with
  | zero => rfl
  | succ n ih =>
    have ha : a < 4096 := by omega
    rw [readBytes, Memory.read_lt ha, ih (by omega)]
    simp [List.range_succ_eq_map, Function.comp_def, Nat.add_comm, Nat.add_left_comm]

/-- Where not all exist, the first address that does not. -/
theorem readBytes_error (m : Memory) {a n : Nat} (hn : n ≠ 0) (h : 4096 < a + n) :
    readBytes m a n = .error (max a 4096) := by
  induction n generalizing a with
  | zero => exact absurd rfl hn
  | succ n ih =>
    rw [readBytes]
    by_cases ha : a < 4096
    · rw [Memory.read_lt ha, ih (by omega) (by omega)]
      simp only [Except.error.injEq]
      omega
    · rw [Memory.read_ge (by omega)]
      simp only [Except.error.injEq]
      omega

end Sys2Proof.Machine
end

