-- ==== Sys2Proof/Laws/State.lean ====
section
/-! SUPPORT. One lemma per field and update of State, true by rfl, and the read-over-write lemmas of the registers, so that
no proof unfolds a record update. -/

namespace Sys2Proof.Machine

/-! ### setV -/

@[simp] theorem State.setV_v (s : State) (x : Reg) (b : Byte) : (s.setV x b).v = s.v.set x b := rfl
@[simp] theorem State.setV_i (s : State) (x : Reg) (b : Byte) : (s.setV x b).i = s.i := rfl
@[simp] theorem State.setV_pc (s : State) (x : Reg) (b : Byte) : (s.setV x b).pc = s.pc := rfl
@[simp] theorem State.setV_sp (s : State) (x : Reg) (b : Byte) : (s.setV x b).sp = s.sp := rfl
@[simp] theorem State.setV_stk (s : State) (x : Reg) (b : Byte) : (s.setV x b).stk = s.stk := rfl
@[simp] theorem State.setV_dt (s : State) (x : Reg) (b : Byte) : (s.setV x b).dt = s.dt := rfl
@[simp] theorem State.setV_st (s : State) (x : Reg) (b : Byte) : (s.setV x b).st = s.st := rfl
@[simp] theorem State.setV_mem (s : State) (x : Reg) (b : Byte) : (s.setV x b).mem = s.mem := rfl
@[simp] theorem State.setV_fb (s : State) (x : Reg) (b : Byte) : (s.setV x b).fb = s.fb := rfl
@[simp] theorem State.setV_key (s : State) (x : Reg) (b : Byte) : (s.setV x b).key = s.key := rfl
@[simp] theorem State.setV_rndIn (s : State) (x : Reg) (b : Byte) : (s.setV x b).rndIn = s.rndIn := rfl
@[simp] theorem State.setV_draws (s : State) (x : Reg) (b : Byte) : (s.setV x b).draws = s.draws := rfl

/-! ### setI -/

@[simp] theorem State.setI_v (s : State) (w : Word) : (s.setI w).v = s.v := rfl
@[simp] theorem State.setI_i (s : State) (w : Word) : (s.setI w).i = w := rfl
@[simp] theorem State.setI_pc (s : State) (w : Word) : (s.setI w).pc = s.pc := rfl
@[simp] theorem State.setI_sp (s : State) (w : Word) : (s.setI w).sp = s.sp := rfl
@[simp] theorem State.setI_stk (s : State) (w : Word) : (s.setI w).stk = s.stk := rfl
@[simp] theorem State.setI_dt (s : State) (w : Word) : (s.setI w).dt = s.dt := rfl
@[simp] theorem State.setI_st (s : State) (w : Word) : (s.setI w).st = s.st := rfl
@[simp] theorem State.setI_mem (s : State) (w : Word) : (s.setI w).mem = s.mem := rfl
@[simp] theorem State.setI_fb (s : State) (w : Word) : (s.setI w).fb = s.fb := rfl
@[simp] theorem State.setI_key (s : State) (w : Word) : (s.setI w).key = s.key := rfl
@[simp] theorem State.setI_rndIn (s : State) (w : Word) : (s.setI w).rndIn = s.rndIn := rfl
@[simp] theorem State.setI_draws (s : State) (w : Word) : (s.setI w).draws = s.draws := rfl
@[simp] theorem State.setI_getV (s : State) (w : Word) (r : Reg) : (s.setI w).getV r = s.getV r := rfl

/-! ### setPc -/

@[simp] theorem State.setPc_v (s : State) (w : Word) : (s.setPc w).v = s.v := rfl
@[simp] theorem State.setPc_i (s : State) (w : Word) : (s.setPc w).i = s.i := rfl
@[simp] theorem State.setPc_pc (s : State) (w : Word) : (s.setPc w).pc = w := rfl
@[simp] theorem State.setPc_sp (s : State) (w : Word) : (s.setPc w).sp = s.sp := rfl
@[simp] theorem State.setPc_stk (s : State) (w : Word) : (s.setPc w).stk = s.stk := rfl
@[simp] theorem State.setPc_dt (s : State) (w : Word) : (s.setPc w).dt = s.dt := rfl
@[simp] theorem State.setPc_st (s : State) (w : Word) : (s.setPc w).st = s.st := rfl
@[simp] theorem State.setPc_mem (s : State) (w : Word) : (s.setPc w).mem = s.mem := rfl
@[simp] theorem State.setPc_fb (s : State) (w : Word) : (s.setPc w).fb = s.fb := rfl
@[simp] theorem State.setPc_key (s : State) (w : Word) : (s.setPc w).key = s.key := rfl
@[simp] theorem State.setPc_rndIn (s : State) (w : Word) : (s.setPc w).rndIn = s.rndIn := rfl
@[simp] theorem State.setPc_draws (s : State) (w : Word) : (s.setPc w).draws = s.draws := rfl
@[simp] theorem State.setPc_getV (s : State) (w : Word) (r : Reg) : (s.setPc w).getV r = s.getV r := rfl

/-! ### setDt -/

@[simp] theorem State.setDt_v (s : State) (b : Byte) : (s.setDt b).v = s.v := rfl
@[simp] theorem State.setDt_i (s : State) (b : Byte) : (s.setDt b).i = s.i := rfl
@[simp] theorem State.setDt_pc (s : State) (b : Byte) : (s.setDt b).pc = s.pc := rfl
@[simp] theorem State.setDt_sp (s : State) (b : Byte) : (s.setDt b).sp = s.sp := rfl
@[simp] theorem State.setDt_stk (s : State) (b : Byte) : (s.setDt b).stk = s.stk := rfl
@[simp] theorem State.setDt_dt (s : State) (b : Byte) : (s.setDt b).dt = b := rfl
@[simp] theorem State.setDt_st (s : State) (b : Byte) : (s.setDt b).st = s.st := rfl
@[simp] theorem State.setDt_mem (s : State) (b : Byte) : (s.setDt b).mem = s.mem := rfl
@[simp] theorem State.setDt_fb (s : State) (b : Byte) : (s.setDt b).fb = s.fb := rfl
@[simp] theorem State.setDt_key (s : State) (b : Byte) : (s.setDt b).key = s.key := rfl
@[simp] theorem State.setDt_rndIn (s : State) (b : Byte) : (s.setDt b).rndIn = s.rndIn := rfl
@[simp] theorem State.setDt_draws (s : State) (b : Byte) : (s.setDt b).draws = s.draws := rfl
@[simp] theorem State.setDt_getV (s : State) (b : Byte) (r : Reg) : (s.setDt b).getV r = s.getV r := rfl

/-! ### setSt -/

@[simp] theorem State.setSt_v (s : State) (b : Byte) : (s.setSt b).v = s.v := rfl
@[simp] theorem State.setSt_i (s : State) (b : Byte) : (s.setSt b).i = s.i := rfl
@[simp] theorem State.setSt_pc (s : State) (b : Byte) : (s.setSt b).pc = s.pc := rfl
@[simp] theorem State.setSt_sp (s : State) (b : Byte) : (s.setSt b).sp = s.sp := rfl
@[simp] theorem State.setSt_stk (s : State) (b : Byte) : (s.setSt b).stk = s.stk := rfl
@[simp] theorem State.setSt_dt (s : State) (b : Byte) : (s.setSt b).dt = s.dt := rfl
@[simp] theorem State.setSt_st (s : State) (b : Byte) : (s.setSt b).st = b := rfl
@[simp] theorem State.setSt_mem (s : State) (b : Byte) : (s.setSt b).mem = s.mem := rfl
@[simp] theorem State.setSt_fb (s : State) (b : Byte) : (s.setSt b).fb = s.fb := rfl
@[simp] theorem State.setSt_key (s : State) (b : Byte) : (s.setSt b).key = s.key := rfl
@[simp] theorem State.setSt_rndIn (s : State) (b : Byte) : (s.setSt b).rndIn = s.rndIn := rfl
@[simp] theorem State.setSt_draws (s : State) (b : Byte) : (s.setSt b).draws = s.draws := rfl
@[simp] theorem State.setSt_getV (s : State) (b : Byte) (r : Reg) : (s.setSt b).getV r = s.getV r := rfl

/-! ### setStack -/

@[simp] theorem State.setStack_v (s : State) (p : Byte) (k : Vector Word 16) : (s.setStack p k).v = s.v := rfl
@[simp] theorem State.setStack_i (s : State) (p : Byte) (k : Vector Word 16) : (s.setStack p k).i = s.i := rfl
@[simp] theorem State.setStack_pc (s : State) (p : Byte) (k : Vector Word 16) : (s.setStack p k).pc = s.pc := rfl
@[simp] theorem State.setStack_sp (s : State) (p : Byte) (k : Vector Word 16) : (s.setStack p k).sp = p := rfl
@[simp] theorem State.setStack_stk (s : State) (p : Byte) (k : Vector Word 16) : (s.setStack p k).stk = k := rfl
@[simp] theorem State.setStack_dt (s : State) (p : Byte) (k : Vector Word 16) : (s.setStack p k).dt = s.dt := rfl
@[simp] theorem State.setStack_st (s : State) (p : Byte) (k : Vector Word 16) : (s.setStack p k).st = s.st := rfl
@[simp] theorem State.setStack_mem (s : State) (p : Byte) (k : Vector Word 16) : (s.setStack p k).mem = s.mem := rfl
@[simp] theorem State.setStack_fb (s : State) (p : Byte) (k : Vector Word 16) : (s.setStack p k).fb = s.fb := rfl
@[simp] theorem State.setStack_key (s : State) (p : Byte) (k : Vector Word 16) : (s.setStack p k).key = s.key := rfl
@[simp] theorem State.setStack_rndIn (s : State) (p : Byte) (k : Vector Word 16) : (s.setStack p k).rndIn = s.rndIn := rfl
@[simp] theorem State.setStack_draws (s : State) (p : Byte) (k : Vector Word 16) : (s.setStack p k).draws = s.draws := rfl
@[simp] theorem State.setStack_getV (s : State) (p : Byte) (k : Vector Word 16) (r : Reg) : (s.setStack p k).getV r = s.getV r := rfl

/-! ### setMem -/

@[simp] theorem State.setMem_v (s : State) (m : Memory) : (s.setMem m).v = s.v := rfl
@[simp] theorem State.setMem_i (s : State) (m : Memory) : (s.setMem m).i = s.i := rfl
@[simp] theorem State.setMem_pc (s : State) (m : Memory) : (s.setMem m).pc = s.pc := rfl
@[simp] theorem State.setMem_sp (s : State) (m : Memory) : (s.setMem m).sp = s.sp := rfl
@[simp] theorem State.setMem_stk (s : State) (m : Memory) : (s.setMem m).stk = s.stk := rfl
@[simp] theorem State.setMem_dt (s : State) (m : Memory) : (s.setMem m).dt = s.dt := rfl
@[simp] theorem State.setMem_st (s : State) (m : Memory) : (s.setMem m).st = s.st := rfl
@[simp] theorem State.setMem_mem (s : State) (m : Memory) : (s.setMem m).mem = m := rfl
@[simp] theorem State.setMem_fb (s : State) (m : Memory) : (s.setMem m).fb = s.fb := rfl
@[simp] theorem State.setMem_key (s : State) (m : Memory) : (s.setMem m).key = s.key := rfl
@[simp] theorem State.setMem_rndIn (s : State) (m : Memory) : (s.setMem m).rndIn = s.rndIn := rfl
@[simp] theorem State.setMem_draws (s : State) (m : Memory) : (s.setMem m).draws = s.draws := rfl
@[simp] theorem State.setMem_getV (s : State) (m : Memory) (r : Reg) : (s.setMem m).getV r = s.getV r := rfl

/-! ### setFb -/

@[simp] theorem State.setFb_v (s : State) (d : Display) : (s.setFb d).v = s.v := rfl
@[simp] theorem State.setFb_i (s : State) (d : Display) : (s.setFb d).i = s.i := rfl
@[simp] theorem State.setFb_pc (s : State) (d : Display) : (s.setFb d).pc = s.pc := rfl
@[simp] theorem State.setFb_sp (s : State) (d : Display) : (s.setFb d).sp = s.sp := rfl
@[simp] theorem State.setFb_stk (s : State) (d : Display) : (s.setFb d).stk = s.stk := rfl
@[simp] theorem State.setFb_dt (s : State) (d : Display) : (s.setFb d).dt = s.dt := rfl
@[simp] theorem State.setFb_st (s : State) (d : Display) : (s.setFb d).st = s.st := rfl
@[simp] theorem State.setFb_mem (s : State) (d : Display) : (s.setFb d).mem = s.mem := rfl
@[simp] theorem State.setFb_fb (s : State) (d : Display) : (s.setFb d).fb = d := rfl
@[simp] theorem State.setFb_key (s : State) (d : Display) : (s.setFb d).key = s.key := rfl
@[simp] theorem State.setFb_rndIn (s : State) (d : Display) : (s.setFb d).rndIn = s.rndIn := rfl
@[simp] theorem State.setFb_draws (s : State) (d : Display) : (s.setFb d).draws = s.draws := rfl
@[simp] theorem State.setFb_getV (s : State) (d : Display) (r : Reg) : (s.setFb d).getV r = s.getV r := rfl

/-! ### setKeys -/

@[simp] theorem State.setKeys_v (s : State) (k : Vector Bool 16) : (s.setKeys k).v = s.v := rfl
@[simp] theorem State.setKeys_i (s : State) (k : Vector Bool 16) : (s.setKeys k).i = s.i := rfl
@[simp] theorem State.setKeys_pc (s : State) (k : Vector Bool 16) : (s.setKeys k).pc = s.pc := rfl
@[simp] theorem State.setKeys_sp (s : State) (k : Vector Bool 16) : (s.setKeys k).sp = s.sp := rfl
@[simp] theorem State.setKeys_stk (s : State) (k : Vector Bool 16) : (s.setKeys k).stk = s.stk := rfl
@[simp] theorem State.setKeys_dt (s : State) (k : Vector Bool 16) : (s.setKeys k).dt = s.dt := rfl
@[simp] theorem State.setKeys_st (s : State) (k : Vector Bool 16) : (s.setKeys k).st = s.st := rfl
@[simp] theorem State.setKeys_mem (s : State) (k : Vector Bool 16) : (s.setKeys k).mem = s.mem := rfl
@[simp] theorem State.setKeys_fb (s : State) (k : Vector Bool 16) : (s.setKeys k).fb = s.fb := rfl
@[simp] theorem State.setKeys_key (s : State) (k : Vector Bool 16) : (s.setKeys k).key = k := rfl
@[simp] theorem State.setKeys_rndIn (s : State) (k : Vector Bool 16) : (s.setKeys k).rndIn = s.rndIn := rfl
@[simp] theorem State.setKeys_draws (s : State) (k : Vector Bool 16) : (s.setKeys k).draws = s.draws := rfl
@[simp] theorem State.setKeys_getV (s : State) (k : Vector Bool 16) (r : Reg) : (s.setKeys k).getV r = s.getV r := rfl

/-! ### setRnd -/

@[simp] theorem State.setRnd_v (s : State) (l : List Byte) (n : Nat) : (s.setRnd l n).v = s.v := rfl
@[simp] theorem State.setRnd_i (s : State) (l : List Byte) (n : Nat) : (s.setRnd l n).i = s.i := rfl
@[simp] theorem State.setRnd_pc (s : State) (l : List Byte) (n : Nat) : (s.setRnd l n).pc = s.pc := rfl
@[simp] theorem State.setRnd_sp (s : State) (l : List Byte) (n : Nat) : (s.setRnd l n).sp = s.sp := rfl
@[simp] theorem State.setRnd_stk (s : State) (l : List Byte) (n : Nat) : (s.setRnd l n).stk = s.stk := rfl
@[simp] theorem State.setRnd_dt (s : State) (l : List Byte) (n : Nat) : (s.setRnd l n).dt = s.dt := rfl
@[simp] theorem State.setRnd_st (s : State) (l : List Byte) (n : Nat) : (s.setRnd l n).st = s.st := rfl
@[simp] theorem State.setRnd_mem (s : State) (l : List Byte) (n : Nat) : (s.setRnd l n).mem = s.mem := rfl
@[simp] theorem State.setRnd_fb (s : State) (l : List Byte) (n : Nat) : (s.setRnd l n).fb = s.fb := rfl
@[simp] theorem State.setRnd_key (s : State) (l : List Byte) (n : Nat) : (s.setRnd l n).key = s.key := rfl
@[simp] theorem State.setRnd_rndIn (s : State) (l : List Byte) (n : Nat) : (s.setRnd l n).rndIn = l := rfl
@[simp] theorem State.setRnd_draws (s : State) (l : List Byte) (n : Nat) : (s.setRnd l n).draws = n := rfl
@[simp] theorem State.setRnd_getV (s : State) (l : List Byte) (n : Nat) (r : Reg) : (s.setRnd l n).getV r = s.getV r := rfl

/-! ### Registers -/

@[simp] theorem State.getV_setV_same (s : State) (x : Reg) (b : Byte) : (s.setV x b).getV x = b := by
  simp [State.getV]

theorem State.getV_setV_ne (s : State) (b : Byte) {x r : Reg} (h : r ≠ x) : (s.setV x b).getV r = s.getV r := by
  have : x.val ≠ r.val := fun e => h (Fin.ext e.symm)
  simp [State.getV, this]

theorem State.getV_setV (s : State) (x r : Reg) (b : Byte) :
    (s.setV x b).getV r = if r = x then b else s.getV r := by
  by_cases h : r = x
  · subst h; simp
  · simp [h, State.getV_setV_ne s b h]

/-- Two states with the same registers have the same register vector. -/
theorem State.v_ext {s t : State} (h : ∀ r, t.getV r = s.getV r) : t.v = s.v := by
  apply Vector.ext
  intro k hk
  exact h ⟨k, hk⟩

/-- A state is known from its fields. -/
theorem State.ext_fields {s t : State} (hv : t.v = s.v) (hi : t.i = s.i) (hpc : t.pc = s.pc) (hsp : t.sp = s.sp)
    (hstk : t.stk = s.stk) (hdt : t.dt = s.dt) (hst : t.st = s.st) (hmem : t.mem = s.mem) (hfb : t.fb = s.fb)
    (hkey : t.key = s.key) (hr : t.rndIn = s.rndIn) (hd : t.draws = s.draws) : t = s := by
  cases s; cases t; simp_all

@[simp] theorem State.setV_getV_self (s : State) (x : Reg) : s.setV x (s.getV x) = s := by
  simp [State.setV, State.getV]

@[simp] theorem State.setPc_self (s : State) : s.setPc s.pc = s := rfl

@[simp] theorem State.setMem_self (s : State) : s.setMem s.mem = s := rfl

@[simp] theorem State.setPc_setPc (s : State) (a b : Word) : (s.setPc a).setPc b = s.setPc b := rfl

@[simp] theorem State.setMem_setMem (s : State) (a b : Memory) : (s.setMem a).setMem b = s.setMem b := rfl

@[simp] theorem State.setRnd_setRnd (s : State) (l l' : List Byte) (n n' : Nat) :
    (s.setRnd l n).setRnd l' n' = s.setRnd l' n' := rfl

/-! ### The result and the flag -/

/-- The registers after a result and then the flag: VF holds the flag, also where it is the destination. -/
theorem writeThenFlag_getV (x r : Reg) (a f : Byte) (s : State) :
    (writeThenFlag x a f s).getV r = if r = VF then f else if r = x then a else s.getV r := by
  simp [writeThenFlag, State.getV_setV]

@[simp] theorem writeThenFlag_i (x : Reg) (a b : Byte) (s : State) : (writeThenFlag x a b s).i = s.i := rfl
@[simp] theorem writeThenFlag_pc (x : Reg) (a b : Byte) (s : State) : (writeThenFlag x a b s).pc = s.pc := rfl
@[simp] theorem writeThenFlag_sp (x : Reg) (a b : Byte) (s : State) : (writeThenFlag x a b s).sp = s.sp := rfl
@[simp] theorem writeThenFlag_stk (x : Reg) (a b : Byte) (s : State) : (writeThenFlag x a b s).stk = s.stk := rfl
@[simp] theorem writeThenFlag_dt (x : Reg) (a b : Byte) (s : State) : (writeThenFlag x a b s).dt = s.dt := rfl
@[simp] theorem writeThenFlag_st (x : Reg) (a b : Byte) (s : State) : (writeThenFlag x a b s).st = s.st := rfl
@[simp] theorem writeThenFlag_mem (x : Reg) (a b : Byte) (s : State) : (writeThenFlag x a b s).mem = s.mem := rfl
@[simp] theorem writeThenFlag_fb (x : Reg) (a b : Byte) (s : State) : (writeThenFlag x a b s).fb = s.fb := rfl
@[simp] theorem writeThenFlag_key (x : Reg) (a b : Byte) (s : State) : (writeThenFlag x a b s).key = s.key := rfl
@[simp] theorem writeThenFlag_rndIn (x : Reg) (a b : Byte) (s : State) : (writeThenFlag x a b s).rndIn = s.rndIn := rfl
@[simp] theorem writeThenFlag_draws (x : Reg) (a b : Byte) (s : State) : (writeThenFlag x a b s).draws = s.draws := rfl

/-! ### The random input -/

@[simp] theorem State.useRnd_v (s : State) : s.useRnd.v = s.v := by
  unfold State.useRnd; split <;> rfl
@[simp] theorem State.useRnd_i (s : State) : s.useRnd.i = s.i := by
  unfold State.useRnd; split <;> rfl
@[simp] theorem State.useRnd_pc (s : State) : s.useRnd.pc = s.pc := by
  unfold State.useRnd; split <;> rfl
@[simp] theorem State.useRnd_sp (s : State) : s.useRnd.sp = s.sp := by
  unfold State.useRnd; split <;> rfl
@[simp] theorem State.useRnd_stk (s : State) : s.useRnd.stk = s.stk := by
  unfold State.useRnd; split <;> rfl
@[simp] theorem State.useRnd_dt (s : State) : s.useRnd.dt = s.dt := by
  unfold State.useRnd; split <;> rfl
@[simp] theorem State.useRnd_st (s : State) : s.useRnd.st = s.st := by
  unfold State.useRnd; split <;> rfl
@[simp] theorem State.useRnd_mem (s : State) : s.useRnd.mem = s.mem := by
  unfold State.useRnd; split <;> rfl
@[simp] theorem State.useRnd_fb (s : State) : s.useRnd.fb = s.fb := by
  unfold State.useRnd; split <;> rfl
@[simp] theorem State.useRnd_key (s : State) : s.useRnd.key = s.key := by
  unfold State.useRnd; split <;> rfl

@[simp] theorem State.useRnd_getV (s : State) (r : Reg) : s.useRnd.getV r = s.getV r := by
  simp [State.getV]

theorem State.useRnd_cons (s : State) {b : Byte} {l : List Byte} (h : s.rndIn = b :: l) :
    s.rnd = b ∧ s.useRnd = s.setRnd l s.draws := by
  simp [State.rnd, State.useRnd, h]

theorem State.useRnd_nil (s : State) (h : s.rndIn = []) :
    s.rnd = Config.rndStream s.draws ∧ s.useRnd = s.setRnd [] (s.draws + 1) := by
  simp [State.rnd, State.useRnd, h]

end Sys2Proof.Machine
end

