-- ==== Sys2Proof/Laws/Ops.lean ====
section
/-! SUPPORT. One lemma for each shared operation that says everything it can do; later proofs cite it instead of unfolding
the operation. -/

namespace Sys2Proof.Machine

@[simp] theorem raise_eq (f : State → Fault) (s : State) : raise f s = .fault (f s) := rfl

@[simp] theorem andThen_next (s : State) (k : State → Result) : andThen (.next s) k = k s := rfl

@[simp] theorem andThen_fault (f : Fault) (k : State → Result) : andThen (.fault f) k = .fault f := rfl

/-! ### Memory -/

theorem memRead_lt (s : State) {a : Nat} (k : Byte → Result) (h : a < 4096) : memRead s a k = k (s.mem.byteAt a) := by
  simp [memRead, h]

theorem memRead_ge (s : State) {a : Nat} (k : Byte → Result) (h : 4096 ≤ a) :
    memRead s a k = .fault (.outOfBoundsMemory a s) := by
  simp [memRead, h]

theorem memWrite_lt (s : State) {a : Nat} (b : Byte) (h : a < 4096) :
    memWrite a b s = .next (s.setMem (s.mem.put a b)) := by
  simp [memWrite, Memory.write_lt b h]

theorem memWrite_ge (s : State) {a : Nat} (b : Byte) (h : 4096 ≤ a) :
    memWrite a b s = .fault (.outOfBoundsMemory a s) := by
  simp [memWrite, Memory.write_ge b h]

/-- All the bytes of a run exist: they are written and nothing else changes. -/
theorem memWriteAll_ok (s : State) {a : Nat} {bs : List Byte} (h : bs = [] ∨ a + bs.length ≤ 4096) :
    memWriteAll a bs s = .next (s.setMem (s.mem.putAll a bs)) := by
  induction bs generalizing a s with
  | nil => rfl
  | cons b bs ih =>
    have ha : a + (bs.length + 1) ≤ 4096 := by simpa using h
    rw [memWriteAll, memWrite_lt s b (by omega), andThen_next, ih _ (by right; omega)]
    rfl

/-- A byte of a run does not exist: the ones below 4096 are written, and the first one that does not exist is reported. -/
theorem memWriteAll_fault (s : State) {a : Nat} {bs : List Byte} (hb : bs ≠ []) (h : 4096 < a + bs.length) :
    memWriteAll a bs s =
      .fault (.outOfBoundsMemory (max a 4096) (s.setMem (s.mem.putAll a (bs.take (4096 - a))))) := by
  induction bs generalizing a s with
  | nil => exact absurd rfl hb
  | cons b bs ih =>
    simp only [List.length_cons] at h
    rw [memWriteAll]
    by_cases ha : a < 4096
    · have hne : bs ≠ [] := by
        rintro rfl
        simp only [List.length_nil] at h
        omega
      rw [memWrite_lt s b ha, andThen_next, ih _ hne (by omega)]
      have e : 4096 - a = (4096 - (a + 1)) + 1 := by omega
      have e' : max (a + 1) 4096 = max a 4096 := by omega
      rw [e, e', List.take_succ_cons]
      rfl
    · rw [memWrite_ge s b (by omega), andThen_fault]
      have e : 4096 - a = 0 := by omega
      have e' : max a 4096 = a := by omega
      rw [e, e']
      rfl

/-- What a run of byte writes leaves, whether it ends in a fault or not: only memory differs, in canonical form. -/
theorem memWriteAll_cases (s : State) (a : Nat) (bs : List Byte) :
    (∃ m, memWriteAll a bs s = .next (s.setMem m) ∧ (s.mem.wf = true → m.wf = true)) ∨
    (∃ e m, memWriteAll a bs s = .fault (.outOfBoundsMemory e (s.setMem m)) ∧ (s.mem.wf = true → m.wf = true)) := by
  by_cases h : bs = [] ∨ a + bs.length ≤ 4096
  · refine .inl ⟨_, memWriteAll_ok s h, fun hw => ?_⟩
    rcases h with rfl | h
    · exact hw
    · exact Memory.putAll_wf hw h
  · refine .inr ⟨_, _, memWriteAll_fault s (by tauto) (by omega), fun hw => ?_⟩
    by_cases ha : a ≤ 4096
    · exact Memory.putAll_wf hw (by rw [List.length_take]; omega)
    · rw [show 4096 - a = 0 by omega]
      exact hw

/-! ### Loading registers -/

/-- The registers of a list loaded from memory. -/
def loadFold (a : Nat) (l : List Reg) (s : State) : State := l.foldl (fun t r => t.setV r (s.mem.byteAt (a + r.val))) s

theorem loadFold_cons (a : Nat) (r : Reg) (l : List Reg) (s : State) :
    loadFold a (r :: l) s = loadFold a l (s.setV r (s.mem.byteAt (a + r.val))) := rfl

/-- Loading registers changes no field but the registers. -/
theorem loadFold_fields (a : Nat) (l : List Reg) (s : State) :
    ∃ v, loadFold a l s = { s with v := v } := by
  induction l generalizing s with
  | nil => exact ⟨s.v, rfl⟩
  | cons r l ih =>
    rw [loadFold_cons]
    obtain ⟨v, hv⟩ := ih (s.setV r (s.mem.byteAt (a + r.val)))
    exact ⟨v, hv⟩

/-- A register of the list holds its byte of memory, every other register is as before. -/
theorem loadFold_getV (a : Nat) (l : List Reg) (s : State) (r : Reg) :
    (loadFold a l s).getV r = if r ∈ l then s.mem.byteAt (a + r.val) else s.getV r := by
  induction l generalizing s with
  | nil => simp [loadFold]
  | cons q l ih =>
    rw [loadFold_cons, ih]
    by_cases h : r = q
    · subst h; by_cases h' : r ∈ l <;> simp [h']
    · simp [h, State.getV_setV_ne s _ h]

/-- All the bytes exist: every register of the list is loaded. -/
theorem loadRegsFrom_ok (a : Nat) {l : List Reg} (s : State) (h : ∀ r ∈ l, a + r.val < 4096) :
    loadRegsFrom a l s = .next (loadFold a l s) := by
  induction l generalizing s with
  | nil => rfl
  | cons r l ih =>
    rw [loadRegsFrom, memRead_lt s _ (h r (by simp)), ih _ fun q hq => h q (by simp [hq]), loadFold_cons]

/-- The first byte that does not exist is reported, with the registers before it loaded. -/
theorem loadRegsFrom_fault (a : Nat) {l post : List Reg} {r : Reg} (s : State) (h : ∀ q ∈ l, a + q.val < 4096)
    (hr : 4096 ≤ a + r.val) :
    loadRegsFrom a (l ++ r :: post) s = .fault (.outOfBoundsMemory (a + r.val) (loadFold a l s)) := by
  induction l generalizing s with
  | nil => rw [List.nil_append, loadRegsFrom, memRead_ge s _ hr]; rfl
  | cons q l ih =>
    rw [List.cons_append, loadRegsFrom, memRead_lt s _ (h q (by simp)), ih _ fun q' hq => h q' (by simp [hq]),
      loadFold_cons]

theorem mem_regsUpTo : ∀ x r : Reg, r ∈ regsUpTo x ↔ r ≤ x := by decide

theorem length_regsUpTo : ∀ x : Reg, (regsUpTo x).length = x.val + 1 := by decide

theorem regsUpTo_get : ∀ (x : Reg) (k : Fin 16), k ≤ x → (regsUpTo x)[k.val]? = some k := by decide

@[simp] theorem valuesUpTo_length (x : Reg) (s : State) : (valuesUpTo x s).length = x.val + 1 := by
  simp [valuesUpTo, length_regsUpTo]

theorem valuesUpTo_get (x : Reg) (s : State) {k : Fin 16} (h : k ≤ x) : (valuesUpTo x s)[k.val]? = some (s.getV k) := by
  simp [valuesUpTo, regsUpTo_get x k h]

@[simp] theorem bcdDigits_length (b : Byte) : (bcdDigits b).length = 3 := rfl

@[simp] theorem dataAddr_eq (s : State) (k : Nat) : dataAddr s k = s.i.toNat + k := rfl

@[simp] theorem afterBlock_eq (x : Reg) (s : State) : afterBlock x s = s := rfl

@[simp] theorem shiftOperand_eq (x y : Reg) (s : State) : shiftOperand x y s = s.getV x := rfl

/-- Loading registers changes nothing but registers, whether it ends in a fault or not. -/
theorem loadRegsFrom_cases (a : Nat) (l : List Reg) (s : State) :
    (∃ v, loadRegsFrom a l s = .next { s with v := v }) ∨
    (∃ e v, loadRegsFrom a l s = .fault (.outOfBoundsMemory e { s with v := v })) := by
  induction l generalizing s with
  | nil => exact .inl ⟨s.v, rfl⟩
  | cons r l ih =>
    rw [loadRegsFrom]
    by_cases h : a + r.val < 4096
    · rw [memRead_lt s _ h]
      rcases ih (s.setV r (s.mem.byteAt (a + r.val))) with ⟨v, hv⟩ | ⟨e, v, hv⟩
      · exact .inl ⟨v, hv⟩
      · exact .inr ⟨e, v, hv⟩
    · rw [memRead_ge s _ (by omega)]
      exact .inr ⟨_, s.v, rfl⟩

/-! ### Fetch -/

/-- The fetch: a fault with nothing changed where one of the two bytes does not exist, else the rest with the word and PC
moved past it. -/
theorem fetch_cases (s : State) (k : Word → State → Result) :
    (4096 ≤ s.pc.toNat ∧ fetch s k = .fault (.outOfBoundsMemory s.pc.toNat s)) ∨
    (s.pc.toNat = 4095 ∧ fetch s k = .fault (.outOfBoundsMemory 4096 s)) ∨
    (s.pc.toNat < 4095 ∧
      fetch s k = k (wordOfBytes (s.mem.byteAt s.pc.toNat) (s.mem.byteAt (s.pc.toNat + 1))) (s.setPc (s.pc + 2))) := by
  unfold fetch
  by_cases h : s.pc.toNat < 4096
  · rw [memRead_lt s _ h]
    by_cases h' : s.pc.toNat + 1 < 4096
    · rw [memRead_lt s _ h']
      exact .inr (.inr ⟨by omega, rfl⟩)
    · rw [memRead_ge s _ (by omega)]
      have e : s.pc.toNat = 4095 := by omega
      exact .inr (.inl ⟨e, by rw [e]⟩)
  · rw [memRead_ge s _ (by omega)]
    exact .inl ⟨by omega, rfl⟩

/-- The word at PC where both its bytes exist. -/
def wordAt (s : State) : Word := wordOfBytes (s.mem.byteAt s.pc.toNat) (s.mem.byteAt (s.pc.toNat + 1))

/-- Everything a step can do. -/
theorem step_cases (s : State) :
    (4095 ≤ s.pc.toNat ∧ step s = .fault (.outOfBoundsMemory (max s.pc.toNat 4096) s)) ∨
    (s.pc.toNat < 4095 ∧ ∃ e, decode (wordAt s) = .error e ∧
      step s = .fault (.invalidOpcode (wordAt s) (s.setPc (s.pc + 2)))) ∨
    (s.pc.toNat < 4095 ∧ ∃ i, decode (wordAt s) = .ok i ∧ step s = exec i (s.setPc (s.pc + 2))) := by
  obtain ⟨k, hs, hok, herr⟩ : ∃ k : Word → State → Result, step s = fetch s k ∧
      (∀ w t i, decode w = .ok i → k w t = exec i t) ∧
      (∀ w t e, decode w = .error e → k w t = .fault (.invalidOpcode w t)) :=
    ⟨_, rfl, fun w t i h => by simp [h], fun w t e h => by simp [h]⟩
  rw [hs]
  rcases fetch_cases s k with ⟨h, e⟩ | ⟨h, e⟩ | ⟨h, e⟩
  · exact .inl ⟨by omega, by rw [e, Nat.max_eq_left h]⟩
  · exact .inl ⟨by omega, by rw [e, h]; rfl⟩
  · rw [e]
    cases hd : decode (wordAt s) with
    | error d => exact .inr (.inl ⟨h, d, rfl, herr _ _ d hd⟩)
    | ok i => exact .inr (.inr ⟨h, i, rfl, hok _ _ i hd⟩)

/-! ### Call stack -/

theorem push_lt (a : Word) (s : State) (h : s.sp.toNat < 16) :
    push a s = .next (s.setStack (s.sp + 1) (s.stk.set s.sp.toNat a)) := by
  simp [push, h]

theorem push_ge (a : Word) (s : State) (h : 16 ≤ s.sp.toNat) : push a s = .fault (.stackOverflow a s) := by
  simp [push, Nat.not_lt.mpr h]

theorem sp_pred_toNat {b : Byte} (h : 0 < b.toNat) : (b - 1).toNat = b.toNat - 1 := by
  have := b.isLt
  show (b - 1#8).toNat = _
  rw [BitVec.toNat_sub, show (1#8).toNat = 1 from rfl]
  omega

theorem pop_pos (s : State) (k : Word → State → Result) (h0 : 0 < s.sp.toNat) (h : s.sp.toNat ≤ 16) :
    pop s k = k (s.stk[s.sp.toNat - 1]'(by omega)) (s.setStack (s.sp - 1) s.stk) := by
  have e := sp_pred_toNat h0
  simp only [pop, e]
  rw [dif_pos (by omega)]

theorem pop_zero (s : State) (k : Word → State → Result) (h : s.sp = 0) : pop s k = .fault (.stackUnderflow s) := by
  simp [pop, h]

/-- Everything `Pop` can do. -/
theorem pop_cases (s : State) (k : Word → State → Result) :
    pop s k = .fault (.stackUnderflow s) ∨
    (∃ h : (s.sp - 1).toNat < 16, pop s k = k s.stk[(s.sp - 1).toNat] (s.setStack (s.sp - 1) s.stk)) := by
  by_cases h : (s.sp - 1).toNat < 16
  · exact .inr ⟨h, dif_pos h⟩
  · exact .inl (dif_neg h)

/-! ### Skips and keys -/

theorem skipIf_eq (c : Bool) (s : State) : skipIf c s = .next (s.setPc (if c then s.pc + 2 else s.pc)) := by
  cases c <;> rfl

theorem isPressed_lt (s : State) {k : Byte} (f : Bool → Result) (h : k.toNat < 16) :
    isPressed s k f = f (s.key[k.toNat]) := by
  simp [isPressed, h]

theorem isPressed_ge (s : State) {k : Byte} (f : Bool → Result) (h : 16 ≤ k.toNat) :
    isPressed s k f = .fault (.keyIndexOutOfRange k s) := by
  simp [isPressed, Nat.not_lt.mpr h]

/-- No key is pressed. -/
theorem leastPressed_none {s : State} : leastPressed s = none ↔ ∀ k : Fin 16, s.key[k] = false := by
  simp [leastPressed, List.find?_eq_none]

/-- The key found is pressed. -/
theorem leastPressed_pressed {s : State} {k : Fin 16} (h : leastPressed s = some k) : s.key[k] = true := by
  have := List.find?_some h
  exact this

/-! ### Display -/

theorem Display.pixel_toggle (d : Display) (x x' : Fin 64) (y y' : Fin 32) :
    (d.toggle x y).pixel x' y' = (d.pixel x' y' ^^ decide (x' = x ∧ y' = y)) := by
  unfold Display.pixel Display.toggle
  by_cases hy : y' = y
  · subst hy
    by_cases hx : x' = x
    · subst hx; simp
    · have hx' : x.val ≠ x'.val := fun e => hx (Fin.ext e.symm)
      simp [hx, hx']
  · have hy' : y.val ≠ y'.val := fun e => hy (Fin.ext e.symm)
    simp [hy, hy']

theorem Display.ext_pixel {d d' : Display} (h : ∀ x y, d.pixel x y = d'.pixel x y) : d = d' := by
  apply Vector.ext
  intro y hy
  apply Vector.ext
  intro x hx
  exact h ⟨x, hx⟩ ⟨y, hy⟩

@[simp] theorem Display.pixel_blank (x : Fin 64) (y : Fin 32) : Display.blank.pixel x y = false := by
  simp [Display.pixel, Display.blank]

/-- Everything one pixel of a sprite can do. -/
theorem drawPixel_eq (x : Fin 64) (y : Fin 32) (on : Bool) (p : Display × Bool) :
    drawPixel x y on p = if on then (p.1.toggle x y, p.2 || p.1.pixel x y) else p := rfl

@[simp] theorem column_val (ox c : Nat) : (column ox c).val = (ox + c) % 64 := rfl

@[simp] theorem rowOf_val (oy r : Nat) : (rowOf oy r).val = (oy + r) % 32 := rfl

/-- A row of a sprite leaves every pixel outside its eight columns alone. -/
theorem drawRow_pixel_outside {ox : Nat} {y y' : Fin 32} {x' : Fin 64} (b : Byte) (p : Display × Bool)
    (h : ∀ c < 8, ¬ ((ox + c) % 64 = x'.val ∧ y = y')) : (drawRow ox y b p).1.pixel x' y' = p.1.pixel x' y' := by
  have key : ∀ (l : List Nat) (q : Display × Bool), (∀ c ∈ l, c < 8) →
      (l.foldl (fun q c => drawPixel (column ox c) y (spriteBit b c) q) q).1.pixel x' y' = q.1.pixel x' y' := by
    intro l
    induction l with
    | nil => intro q _; rfl
    | cons c l ih =>
      intro q hl
      rw [List.foldl_cons, ih _ fun k hk => hl k (by simp [hk]), drawPixel_eq]
      split
      · have hc := h c (hl c (by simp))
        rw [Display.pixel_toggle]
        simp only [Fin.ext_iff, column_val]
        rw [decide_eq_false fun e => hc ⟨e.1.symm, Fin.ext e.2.symm⟩, Bool.xor_false]
      · rfl
  exact key (List.range 8) p fun c hc => List.mem_range.mp hc

/-- A sprite leaves every pixel outside its columns and rows alone. -/
theorem drawSprite_pixel_outside {ox oy : Nat} {x' : Fin 64} {y' : Fin 32} {sprite : List Byte} (d : Display)
    (h : ∀ r < sprite.length, ∀ c < 8, ¬ ((ox + c) % 64 = x'.val ∧ (oy + r) % 32 = y'.val)) :
    (drawSprite ox oy sprite d).1.pixel x' y' = d.pixel x' y' := by
  have key : ∀ (bs : List Byte) (r : Nat) (p : Display × Bool),
      (∀ k < bs.length, ∀ c < 8, ¬ ((ox + c) % 64 = x'.val ∧ (oy + (r + k)) % 32 = y'.val)) →
      (drawRows ox oy r bs p).1.pixel x' y' = p.1.pixel x' y' := by
    intro bs
    induction bs with
    | nil => intro r p _; rfl
    | cons b bs ih =>
      intro r p hb
      rw [drawRows, ih (r + 1) _ fun k hk => by
        have := hb (k + 1) (by simpa using hk)
        rwa [show r + (k + 1) = r + 1 + k by omega] at this]
      exact drawRow_pixel_outside b p fun c hc e =>
        hb 0 (by simp) c hc ⟨e.1, by rw [← e.2]; rfl⟩
  exact key sprite 0 (d, false) fun k hk c hc => by simpa using h k hk c hc

end Sys2Proof.Machine
end

