-- ==== Sys2Proof/Laws/Exec.lean ====
section
/-! SUPPORT. What a step and an instruction can do, said once: the next instruction as a decoded word, the step as `exec` of
it, and everything a fault of an instruction can leave. -/

namespace Sys2Proof.Machine

/-! ### The next instruction -/

/-- The next instruction is the one the word at PC decodes to, where both its bytes exist. -/
theorem nextInstr_eq_some {s : State} {i : Instr} :
    nextInstr s = some i ↔ s.pc.toNat < 4095 ∧ decode (wordAt s) = .ok i := by
  unfold nextInstr
  by_cases h : s.pc.toNat < 4095
  · rw [Memory.read_lt (by omega), Memory.read_lt (by omega)]
    cases hd : decode (wordAt s) <;> simp only [wordAt] at hd <;> simp [hd, h]
  · by_cases h' : s.pc.toNat < 4096
    · rw [Memory.read_lt h', Memory.read_ge (a := s.pc.toNat + 1) (by omega)]
      simp [h]
    · rw [Memory.read_ge (by omega)]
      simp [h]

/-- The next instruction depends on memory and PC alone. -/
theorem nextInstr_congr {s t : State} (hm : t.mem = s.mem) (hp : t.pc = s.pc) : nextInstr t = nextInstr s := by
  unfold nextInstr
  rw [hm, hp]

/-- The step runs the next instruction. -/
theorem step_eq_exec {s : State} {i : Instr} (h : nextInstr s = some i) : step s = exec i (s.setPc (s.pc + 2)) := by
  obtain ⟨hp, hd⟩ := nextInstr_eq_some.mp h
  rcases step_cases s with ⟨h, _⟩ | ⟨_, e, he, _⟩ | ⟨_, j, hj, hs⟩
  · omega
  · rw [hd] at he; cases he
  · rw [hd] at hj; cases hj; exact hs

/-! ### Faults of an instruction -/

/-- Everything a fault of an instruction can leave: registers loaded by `FX65`, bytes stored by `FX33` and `FX55`, in
canonical form, and for every other fault the state as the fetch left it. -/
theorem exec_fault_cases {i : Instr} {s : State} {f : Fault} (h : exec i s = .fault f) :
    (∃ x, i = .loadRegs x ∧ ∃ e v, f = .outOfBoundsMemory e { s with v := v }) ∨
    (∃ x, (i = .bcd x ∨ i = .storeRegs x) ∧
      ∃ e m, (s.mem.wf = true → m.wf = true) ∧ f = .outOfBoundsMemory e (s.setMem m)) ∨
    f.after = s := by
  cases i <;> simp only [exec] at h
  case ret =>
    rcases pop_cases s (fun a s' => .next (s'.setPc a)) with h' | ⟨_, h'⟩ <;> simp only [execRet, h'] at h <;> cases h
    exact .inr (.inr rfl)
  case call =>
    simp only [execCall, push] at h
    split at h <;> cases h
    exact .inr (.inr rfl)
  case drw =>
    simp only [execDrw] at h
    split at h <;> cases h
    exact .inr (.inr rfl)
  case skp =>
    simp only [execSkp, isPressed, skipIf_eq] at h
    split at h <;> cases h
    exact .inr (.inr rfl)
  case sknp =>
    simp only [execSknp, isPressed, skipIf_eq] at h
    split at h <;> cases h
    exact .inr (.inr rfl)
  case waitKey =>
    simp only [execWaitKey] at h
    split at h <;> cases h
  case bcd x =>
    simp only [execBcd] at h
    rcases memWriteAll_cases s (dataAddr s 0) (bcdDigits (s.getV x)) with ⟨m, h', _⟩ | ⟨e, m, h', hw⟩ <;>
      rw [h'] at h <;> cases h
    exact .inr (.inl ⟨x, .inl rfl, e, m, hw, rfl⟩)
  case storeRegs x =>
    simp only [execStoreRegs] at h
    rcases memWriteAll_cases s (dataAddr s 0) (valuesUpTo x s) with ⟨m, h', _⟩ | ⟨e, m, h', hw⟩ <;>
      rw [h'] at h <;> cases h
    exact .inr (.inl ⟨x, .inr rfl, e, m, hw, rfl⟩)
  case loadRegs x =>
    simp only [execLoadRegs] at h
    rcases loadRegsFrom_cases (dataAddr s 0) (regsUpTo x) s with ⟨v, h'⟩ | ⟨e, v, h'⟩ <;> rw [h'] at h <;> cases h
    exact .inl ⟨x, rfl, e, v, rfl⟩
  all_goals cases h

end Sys2Proof.Machine
end

