-- ==== Sys2Proof/Laws/Frames.lean ====
section
/-! SUPPORT. The vocabulary of frames, taken apart: a frame is one fact for each part of the state. -/

namespace Sys2Proof.Machine

/-- A frame as one implication for each part. -/
theorem sameOutside_iff (ps : List Part) (s t : State) : sameOutside ps s t ↔
    (.v ∉ ps → Part.same .v s t) ∧ (.i ∉ ps → Part.same .i s t) ∧ (.pc ∉ ps → Part.same .pc s t) ∧
    (.sp ∉ ps → Part.same .sp s t) ∧ (.stk ∉ ps → Part.same .stk s t) ∧ (.dt ∉ ps → Part.same .dt s t) ∧
    (.st ∉ ps → Part.same .st s t) ∧ (.mem ∉ ps → Part.same .mem s t) ∧ (.fb ∉ ps → Part.same .fb s t) ∧
    (.key ∉ ps → Part.same .key s t) ∧ (.rnd ∉ ps → Part.same .rnd s t) := by
  constructor
  · intro h
    exact ⟨h .v, h .i, h .pc, h .sp, h .stk, h .dt, h .st, h .mem, h .fb, h .key, h .rnd⟩
  · rintro ⟨h1, h2, h3, h4, h5, h6, h7, h8, h9, h10, h11⟩ p
    cases p <;> assumption

theorem sameOutside_refl (ps : List Part) (s : State) : sameOutside ps s s := by
  rw [sameOutside_iff]
  simp [Part.same]

/-- A frame may name more parts than change. -/
theorem sameOutside_mono {ps qs : List Part} {s t : State} (h : sameOutside ps s t) (hs : ps ⊆ qs) :
    sameOutside qs s t := fun p hp => h p fun hm => hp (hs hm)

theorem regsOutside_setV (x : Reg) (b : Byte) (s : State) : regsOutside [x] s (s.setV x b) := by
  intro r hr
  exact State.getV_setV_ne s b (by simpa using hr)

theorem regsOutside_writeThenFlag (x : Reg) (a b : Byte) (s : State) : regsOutside [x, VF] s (writeThenFlag x a b s) := by
  intro r hr
  simp only [List.mem_cons, List.not_mem_nil, or_false, not_or] at hr
  rw [writeThenFlag_getV, if_neg hr.2, if_neg hr.1]

end Sys2Proof.Machine
end

