-- ==== Sys2Proof/Laws/PerInstr.lean ====
section
/-! SUPPORT. The statements made per instruction (LAWS.json). Family `EncodesOnItsRow`: the word the encoder writes for an
instruction stands on the instruction's own row of the opcode table. -/

namespace Sys2Proof.Laws.EncodesOnItsRow

/-- The word the encoder writes for `i` passes the check of `i`'s row of R76. -/
def Statement (i : Instr) : Prop := i.wellFormedAs (encode i) = true

theorem of_masked {i : Instr} (ht : opcodeTable.contains i.row = true) (hc : encode i &&& i.row.mask = i.row.pattern) :
    Statement i := by
  unfold Statement Instr.wellFormedAs OpRow.covers
  rw [ht, hc]
  simp

/-- A mask of two parts, on a value of two parts. -/
theorem and_parts {m n : Nat} {a a' : BitVec m} {b b' : BitVec n} {c : BitVec m} {d : BitVec n} (h : a &&& a' = c)
    (h' : b &&& b' = d) : (a ++ b) &&& (a' ++ b') = c ++ d := by
  rw [BitVec.and_append, h, h']

theorem keep {n : Nat} (a : BitVec n) : a &&& BitVec.allOnes n = a := BitVec.and_allOnes

theorem drop {n : Nat} (a : BitVec n) : a &&& 0#n = 0#n := BitVec.and_zero

theorem mask_F000 : (0xF000 : Word) = BitVec.allOnes 4 ++ 0#12 := by decide

theorem mask_F0FF : (0xF0FF : Word) = BitVec.allOnes 4 ++ (0#4 ++ BitVec.allOnes 8) := by decide

theorem mask_F00F : (0xF00F : Word) = BitVec.allOnes 4 ++ (0#4 ++ (0#4 ++ BitVec.allOnes 4)) := by decide

/-- Format `NNN`: the mask of its rows keeps the top nibble. -/
theorem nnn_masked (op : BitVec 4) (nnn : Addr12) : encNNN op nnn &&& 0xF000 = op ++ 0#12 := by
  rw [mask_F000]
  exact and_parts (keep op) (drop nnn)

/-- Format `XNN` under the mask of the top nibble. -/
theorem xnn_masked (op : BitVec 4) (x : Reg) (nn : Byte) : encXNN op x nn &&& 0xF000 = op ++ 0#12 :=
  nnn_masked op _

/-- Format `XYN` under the mask of the top nibble. -/
theorem xyn_masked (op : BitVec 4) (x y : Reg) (n : BitVec 4) : encXYN op x y n &&& 0xF000 = op ++ 0#12 :=
  nnn_masked op _

/-- Format `XLL`: the mask of its rows keeps the top nibble and the low byte. -/
theorem xll_masked (op : BitVec 4) (x : Reg) (nn : Byte) : encXNN op x nn &&& 0xF0FF = op ++ (0#4 ++ nn) := by
  rw [mask_F0FF]
  exact and_parts (keep op) (and_parts (drop _) (keep nn))

/-- Format `XYL`: the mask of its rows keeps the top and the bottom nibble. -/
theorem xyl_masked (op : BitVec 4) (x y : Reg) (n : BitVec 4) :
    encXYN op x y n &&& 0xF00F = op ++ (0#4 ++ (0#4 ++ n)) := by
  rw [mask_F00F]
  exact and_parts (keep op) (and_parts (drop _) (and_parts (drop _) (keep n)))

theorem cls : Statement .cls := of_masked (by rfl) (by rfl)

theorem ret : Statement .ret := of_masked (by rfl) (by rfl)

theorem jp (nnn : Addr12) : Statement (.jp nnn) := of_masked (by rfl) (nnn_masked _ _)

theorem call (nnn : Addr12) : Statement (.call nnn) := of_masked (by rfl) (nnn_masked _ _)

theorem seImm (x : Reg) (nn : Byte) : Statement (.seImm x nn) := of_masked (by rfl) (xnn_masked _ _ _)

theorem sneImm (x : Reg) (nn : Byte) : Statement (.sneImm x nn) := of_masked (by rfl) (xnn_masked _ _ _)

theorem seReg (x y : Reg) : Statement (.seReg x y) := of_masked (by rfl) (xyl_masked _ _ _ _)

theorem ldImm (x : Reg) (nn : Byte) : Statement (.ldImm x nn) := of_masked (by rfl) (xnn_masked _ _ _)

theorem addImm (x : Reg) (nn : Byte) : Statement (.addImm x nn) := of_masked (by rfl) (xnn_masked _ _ _)

theorem ldReg (x y : Reg) : Statement (.ldReg x y) := of_masked (by rfl) (xyl_masked _ _ _ _)

theorem orReg (x y : Reg) : Statement (.orReg x y) := of_masked (by rfl) (xyl_masked _ _ _ _)

theorem andReg (x y : Reg) : Statement (.andReg x y) := of_masked (by rfl) (xyl_masked _ _ _ _)

theorem xorReg (x y : Reg) : Statement (.xorReg x y) := of_masked (by rfl) (xyl_masked _ _ _ _)

theorem addReg (x y : Reg) : Statement (.addReg x y) := of_masked (by rfl) (xyl_masked _ _ _ _)

theorem subReg (x y : Reg) : Statement (.subReg x y) := of_masked (by rfl) (xyl_masked _ _ _ _)

theorem shr (x y : Reg) : Statement (.shr x y) := of_masked (by rfl) (xyl_masked _ _ _ _)

theorem subnReg (x y : Reg) : Statement (.subnReg x y) := of_masked (by rfl) (xyl_masked _ _ _ _)

theorem shl (x y : Reg) : Statement (.shl x y) := of_masked (by rfl) (xyl_masked _ _ _ _)

theorem sneReg (x y : Reg) : Statement (.sneReg x y) := of_masked (by rfl) (xyl_masked _ _ _ _)

theorem ldI (nnn : Addr12) : Statement (.ldI nnn) := of_masked (by rfl) (nnn_masked _ _)

theorem jpV0 (nnn : Addr12) : Statement (.jpV0 nnn) := of_masked (by rfl) (nnn_masked _ _)

theorem rnd (x : Reg) (nn : Byte) : Statement (.rnd x nn) := of_masked (by rfl) (xnn_masked _ _ _)

theorem drw (x y : Reg) (n : Fin 16) : Statement (.drw x y n) := of_masked (by rfl) (xyn_masked _ _ _ _)

theorem skp (x : Reg) : Statement (.skp x) := of_masked (by rfl) (xll_masked _ _ _)

theorem sknp (x : Reg) : Statement (.sknp x) := of_masked (by rfl) (xll_masked _ _ _)

theorem ldVxDt (x : Reg) : Statement (.ldVxDt x) := of_masked (by rfl) (xll_masked _ _ _)

theorem waitKey (x : Reg) : Statement (.waitKey x) := of_masked (by rfl) (xll_masked _ _ _)

theorem ldDtVx (x : Reg) : Statement (.ldDtVx x) := of_masked (by rfl) (xll_masked _ _ _)

theorem ldStVx (x : Reg) : Statement (.ldStVx x) := of_masked (by rfl) (xll_masked _ _ _)

theorem addI (x : Reg) : Statement (.addI x) := of_masked (by rfl) (xll_masked _ _ _)

theorem ldFont (x : Reg) : Statement (.ldFont x) := of_masked (by rfl) (xll_masked _ _ _)

theorem bcd (x : Reg) : Statement (.bcd x) := of_masked (by rfl) (xll_masked _ _ _)

theorem storeRegs (x : Reg) : Statement (.storeRegs x) := of_masked (by rfl) (xll_masked _ _ _)

theorem loadRegs (x : Reg) : Statement (.loadRegs x) := of_masked (by rfl) (xll_masked _ _ _)

end Sys2Proof.Laws.EncodesOnItsRow
end

