-- ==== Sys2Proof/Tests/Slice0.lean ====
section
/-! SUPPORT. The model's own tests. The expected results are those of spec/95_test_vectors.md, whose row stands in the
comment of a test; the words are written out from the patterns of spec/30_encoding.md R76. At the end, for each statement
of Certificates/Slice0/Obligations.lean that has hypotheses, concrete states that meet them. -/

namespace Sys2Proof.Tests

open Sys2Proof Sys2Proof.Machine

/-! ### Helpers -/

/-- A value read from the next state, none where the result is a fault or a refusal. -/
def nextOf {α : Type} (r : Result) (f : State → α) : Option α :=
  match r with
  | .next s => some (f s)
  | _ => none

/-- The fault a result ends in, none where it does not. -/
def faultOf (r : Result) : Option Fault :=
  match r with
  | .fault f => some f
  | _ => none

/-- A step of `s` with the word `w` at PC. -/
def run (w : Nat) (s : State) : Result := step (s.withFetchWord 16 w)

/-- The reset state with V1 and V2 set. -/
def with12 (a b : Byte) : State := (State.reset.setV 1 a).setV 2 b

/-- V1, VF and PC after the word `w` with V1 = `a`, V2 = `b` and VF = `f` (the columns of vectors T4). -/
def alu (w : Nat) (a b f : Byte) : Option (Byte × Byte × Word) :=
  nextOf (run w ((with12 a b).setV VF f)) fun t => (t.getV 1, t.getV VF, t.pc)

/-- The state with the bytes given from address `a` on. -/
def withBytes (a : Nat) (bs : List Byte) (s : State) : State :=
  match memWriteAll a bs s with
  | .next t => t
  | _ => s

/-- The state with one key pressed. -/
def press (k : Fin 16) (s : State) : State := setKey k true s

/-! ### Decoding: a word for every constructor, written from the patterns of R76 -/

theorem test_decode_0_1_2 :
    decode 0x00E0 = .ok .cls ∧ decode 0x00EE = .ok .ret ∧ decode 0x1ABC = .ok (.jp 0xABC) ∧
    decode 0x2ABC = .ok (.call 0xABC) := by decide

theorem test_decode_skips :
    decode 0x3A42 = .ok (.seImm 10 0x42) ∧ decode 0x4A42 = .ok (.sneImm 10 0x42) ∧
    decode 0x5120 = .ok (.seReg 1 2) ∧ decode 0x9120 = .ok (.sneReg 1 2) := by decide

theorem test_decode_6_7 : decode 0x6BFF = .ok (.ldImm 11 0xFF) ∧ decode 0x71FF = .ok (.addImm 1 0xFF) := by decide

theorem test_decode_8 :
    decode 0x8120 = .ok (.ldReg 1 2) ∧ decode 0x8121 = .ok (.orReg 1 2) ∧ decode 0x8122 = .ok (.andReg 1 2) ∧
    decode 0x8123 = .ok (.xorReg 1 2) ∧ decode 0x8124 = .ok (.addReg 1 2) ∧ decode 0x8125 = .ok (.subReg 1 2) ∧
    decode 0x8126 = .ok (.shr 1 2) ∧ decode 0x8127 = .ok (.subnReg 1 2) ∧ decode 0x812E = .ok (.shl 1 2) := by decide

theorem test_decode_A_B_C_D :
    decode 0xA123 = .ok (.ldI 0x123) ∧ decode 0xB300 = .ok (.jpV0 0x300) ∧ decode 0xC10F = .ok (.rnd 1 0x0F) ∧
    decode 0xD125 = .ok (.drw 1 2 5) := by decide

theorem test_decode_E : decode 0xE19E = .ok (.skp 1) ∧ decode 0xE1A1 = .ok (.sknp 1) := by decide

theorem test_decode_F :
    decode 0xF107 = .ok (.ldVxDt 1) ∧ decode 0xF30A = .ok (.waitKey 3) ∧ decode 0xF015 = .ok (.ldDtVx 0) ∧
    decode 0xF218 = .ok (.ldStVx 2) ∧ decode 0xF11E = .ok (.addI 1) ∧ decode 0xF029 = .ok (.ldFont 0) ∧
    decode 0xF033 = .ok (.bcd 0) ∧ decode 0xF255 = .ok (.storeRegs 2) ∧ decode 0xF265 = .ok (.loadRegs 2) := by decide

/-- The word is read high byte first (T9.1), and the host's word is laid out the same way. -/
theorem test_decode_bytes :
    decodeBytes [0x12, 0x34, 0x56] = .ok (.jp 0x234, [0x56]) ∧ decodeTableWord 16 0x1234 = some (.jp 0x234) ∧
    decodeBytes [0x12] = .error .truncated := by decide

/-! ### Well-formedness: every check refuses an ill-formed word (T0.4 to T0.7, T2.11, T2.12, T4.24, T7.7, T8.24, T8.25) -/

/-- Family 0x0: the whole word counts. -/
theorem test_illegal_0 :
    wordLegal 0x0000 = false ∧ wordLegal 0x01E0 = false ∧ wordLegal 0x00E1 = false ∧ wordLegal 0x0FEE = false ∧
    decode 0x01E0 = .error (.invalidOpcode 0x01E0) ∧ decode 0x0FEE = .error (.invalidOpcode 0x0FEE) := by decide

/-- Families 0x5 and 0x9: the low nibble is 0. -/
theorem test_illegal_5_9 :
    wordLegal 0x5121 = false ∧ wordLegal 0x912F = false ∧ decode 0x5121 = .error (.invalidOpcode 0x5121) ∧
    decode 0x912F = .error (.invalidOpcode 0x912F) := by decide

/-- Family 0x8: the low nibbles 8, 9, A, B, C, D, F. -/
theorem test_illegal_8 :
    (∀ n ∈ [0x8, 0x9, 0xA, 0xB, 0xC, 0xD, 0xF], wordLegal (BitVec.ofNat 16 (0x8120 + n)) = false) ∧
    decode 0x8128 = .error (.invalidOpcode 0x8128) ∧ decode 0x812F = .error (.invalidOpcode 0x812F) := by decide

/-- Families 0xE and 0xF: the low byte. -/
theorem test_illegal_E_F :
    wordLegal 0xE19F = false ∧ wordLegal 0xF100 = false ∧ wordLegal 0xF175 = false ∧
    decode 0xE19F = .error (.invalidOpcode 0xE19F) ∧ decode 0xF175 = .error (.invalidOpcode 0xF175) := by decide

/-- An instruction is refused as the word of another row, and accepted as its own. -/
theorem test_wellFormedAs :
    (Instr.seReg 1 2).wellFormedAs 0x5121 = false ∧ (Instr.addReg 1 2).wellFormedAs 0x8125 = false ∧
    Instr.cls.wellFormedAs 0x00EE = false ∧ (Instr.skp 1).wellFormedAs 0xE1A1 = false ∧
    (Instr.addReg 1 2).wellFormedAs 0x8124 = true := by decide

/-- The opcode table has 34 rows (R76). -/
theorem test_table_rows : opcodeTable.length = 34 := by decide

/-! ### Families 0x0 to 0x2 -/

/-- T0.1. -/
theorem test_cls :
    nextOf (run 0x00E0 ((State.reset.setFb ((Display.blank.toggle 0 0).toggle 63 31)).setV VF 1)) (fun t =>
      (t.fb.pixel 0 0, t.fb.pixel 63 31, t.getV VF, t.pc)) = some (false, false, 1, 0x202) := by decide

/-- T0.2. -/
theorem test_ret :
    nextOf (run 0x00EE (State.reset.setStack 2 ((State.reset.stk.set 0 0x202).set 1 0x456))) (fun t =>
      (t.sp, t.pc, t.stk[1])) = some (1, 0x456, 0x456) := by decide

/-- T0.3. -/
theorem test_ret_underflow :
    faultOf (run 0x00EE State.reset) = some (.stackUnderflow ((State.reset.withFetchWord 16 0x00EE).setPc 0x202)) := by decide

/-- T1.1 and T1.4: the jump to 0xFFF completes, the step after it faults in the fetch with PC where it was. -/
theorem test_jp :
    nextOf (run 0x1ABC State.reset) (·.pc) = some 0xABC ∧
    nextOf (run 0x1FFF State.reset) (fun t => decide (faultOf (step t) = some (.outOfBoundsMemory 0x1000 t))) = some true := by
  decide

/-- T1.5 and T1.6. -/
theorem test_call :
    nextOf (run 0x2ABC State.reset) (fun t => (t.stk[0], t.sp, t.pc)) = some (0x202, 1, 0xABC) ∧
    nextOf (run 0x2ABC (State.reset.setStack 15 State.reset.stk)) (fun t => (t.stk[15], t.sp, t.pc)) =
      some (0x202, 16, 0xABC) := by decide

/-- T1.7. -/
theorem test_call_overflow :
    faultOf (run 0x2ABC (State.reset.setStack 16 State.reset.stk)) =
      some (.stackOverflow 0x202
        (((State.reset.setStack 16 State.reset.stk).withFetchWord 16 0x2ABC).setPc 0x202)) := by decide

/-! ### Families 0x3, 0x4, 0x5, 0x9 -/

/-- T2.1, T2.2. -/
theorem test_seImm :
    nextOf (run 0x3A42 (State.reset.setV 10 0x42)) (·.pc) = some 0x204 ∧
    nextOf (run 0x3A42 (State.reset.setV 10 0x43)) (·.pc) = some 0x202 := by decide

/-- T2.3, T2.4. -/
theorem test_sneImm :
    nextOf (run 0x4A42 (State.reset.setV 10 0x42)) (·.pc) = some 0x202 ∧
    nextOf (run 0x4A42 (State.reset.setV 10 0x43)) (·.pc) = some 0x204 := by decide

/-- T2.5, T2.6. -/
theorem test_seReg :
    nextOf (run 0x5120 (with12 7 7)) (·.pc) = some 0x204 ∧ nextOf (run 0x5120 (with12 7 8)) (·.pc) = some 0x202 := by
  decide

/-- T2.8, T2.9. -/
theorem test_sneReg :
    nextOf (run 0x9120 (with12 7 8)) (·.pc) = some 0x204 ∧ nextOf (run 0x9120 (with12 7 7)) (·.pc) = some 0x202 := by
  decide

/-! ### Families 0x6, 0x7, 0x8 -/

/-- T3.1, T3.2. -/
theorem test_ldImm :
    nextOf (run 0x6BFF State.reset) (fun t => (t.getV 11, t.pc)) = some (0xFF, 0x202) ∧
    nextOf (run 0x6F07 (State.reset.setV VF 1)) (·.getV VF) = some 7 := by decide

/-- T3.3, T3.4. -/
theorem test_addImm :
    nextOf (run 0x7001 (State.reset.setV 0 0xFF)) (fun t => (t.getV 0, t.getV VF)) = some (0, 0) ∧
    nextOf (run 0x71FF (State.reset.setV 1 5)) (·.getV 1) = some 4 := by decide

/-- T4.1. -/
theorem test_ldReg : alu 0x8120 0x12 0x34 1 = some (0x34, 1, 0x202) := by decide

/-- T4.2. -/
theorem test_orReg : alu 0x8121 0xF0 0x0F 1 = some (0xFF, 1, 0x202) := by decide

/-- T4.3. -/
theorem test_andReg : alu 0x8122 0xF0 0x3C 1 = some (0x30, 1, 0x202) := by decide

/-- T4.4. -/
theorem test_xorReg : alu 0x8123 0xFF 0x0F 1 = some (0xF0, 1, 0x202) := by decide

/-- T4.5, T4.6. -/
theorem test_addReg :
    alu 0x8124 0xFA 0x0A 0 = some (0x04, 1, 0x202) ∧ alu 0x8124 0x7F 0x80 1 = some (0xFF, 0, 0x202) := by decide

/-- T4.17, T4.18: VF as the destination and as an operand. -/
theorem test_addReg_vf :
    nextOf (run 0x8F14 ((State.reset.setV VF 0xC8).setV 1 0x64)) (·.getV VF) = some 1 ∧
    nextOf (run 0x80F4 ((State.reset.setV VF 0xFF).setV 0 1)) (fun t => (t.getV 0, t.getV VF)) = some (0, 1) := by decide

/-- T4.9, T4.10. -/
theorem test_subReg :
    alu 0x8125 0x05 0x0A 1 = some (0xFB, 0, 0x202) ∧ alu 0x8125 0x07 0x07 0 = some (0x00, 1, 0x202) := by decide

/-- T4.11, T4.12: Vx is shifted, not Vy. -/
theorem test_shr :
    alu 0x8126 0x05 0xFF 0 = some (0x02, 1, 0x202) ∧ alu 0x8126 0x80 0x01 1 = some (0x40, 0, 0x202) := by decide

/-- T4.13, T4.14. -/
theorem test_subnReg :
    alu 0x8127 0x05 0x0A 0 = some (0x05, 1, 0x202) ∧ alu 0x8127 0x0A 0x05 1 = some (0xFB, 0, 0x202) := by decide

/-- T4.15, T4.16. -/
theorem test_shl :
    alu 0x812E 0x81 0x00 0 = some (0x02, 1, 0x202) ∧ alu 0x812E 0x40 0xFF 1 = some (0x80, 0, 0x202) := by decide

/-! ### Families 0xA to 0xD -/

/-- T5.2. -/
theorem test_ldI : nextOf (run 0xAFFF (State.reset.setI 0x1234)) (·.i) = some 0x0FFF := by decide

/-- T1.8, T1.9. -/
theorem test_jpV0 :
    nextOf (run 0xB300 (State.reset.setV 0 0x10)) (·.pc) = some 0x310 ∧
    nextOf (run 0xBFFF (State.reset.setV 0 0xFF)) (·.pc) = some 0x10FE := by decide

/-- T5.3, T5.6, as transactions with the byte at the step's input. -/
theorem test_rnd :
    (transact (.step 0xA7) ((State.reset.setV 1 0xFF).withFetchWord 16 0xC10F)).1.getV 1 = 0x07 ∧
    (transact (.step 0xFF) ((State.reset.setV VF 1).withFetchWord 16 0xCF80)).1.getV VF = 0x80 := by decide

/-- T5.5: the mask 0; a byte at the input is gone after the step, and without one the free stream is advanced. -/
theorem test_rnd_mask_0 :
    nextOf (run 0xC100 ((State.reset.setV 1 0x55).setRnd [0xFF] 7)) (fun t => (t.getV 1, t.rndIn, t.draws)) =
      some (0, [], 7) ∧
    nextOf (run 0xC100 State.reset) (·.draws) = some 1 := by decide

/-- T6.5: the sprite wraps at both edges. -/
theorem test_drw_wrap :
    nextOf (run 0xD012 (((withBytes 0x20C [0xC0, 0x81] State.reset).setI 0x20C).setV 0 0x3E |>.setV 1 0x1F)) (fun t =>
      (t.fb.pixel 62 31, t.fb.pixel 63 31, t.fb.pixel 62 0, t.fb.pixel 5 0, t.fb.pixel 6 0, t.getV VF)) =
      some (true, true, true, true, false, 0) := by decide

/-- T6.7: one pixel from on to off is a collision. -/
theorem test_drw_collision :
    nextOf (run 0xD011 (((withBytes 0x300 [0xC0] State.reset).setI 0x300).setFb (Display.blank.toggle 0 0))) (fun t =>
      (t.fb.pixel 0 0, t.fb.pixel 1 0, t.getV VF)) = some (false, true, 1) := by decide

/-! ### Family 0xE -/

/-- T7.1, T7.2. -/
theorem test_skp :
    nextOf (run 0xE19E (press 5 (State.reset.setV 1 5))) (·.pc) = some 0x204 ∧
    nextOf (run 0xE19E (press 4 (State.reset.setV 1 5))) (·.pc) = some 0x202 := by decide

/-- T7.3, T7.8. -/
theorem test_sknp :
    nextOf (run 0xE1A1 (press 5 (State.reset.setV 1 5))) (·.pc) = some 0x202 ∧
    nextOf (run 0xE1A1 (State.reset.setV 1 0x0F)) (·.pc) = some 0x204 := by decide

/-- T7.5. -/
theorem test_sknp_fault :
    faultOf (run 0xE1A1 (State.reset.setV 1 0x10)) = some (.keyIndexOutOfRange 0x10
      (((State.reset.setV 1 0x10).withFetchWord 16 0xE1A1).setPc 0x202)) := by decide

/-! ### Family 0xF -/

/-- T8.1. -/
theorem test_ldVxDt : nextOf (run 0xF107 (State.reset.setDt 0x2A)) (fun t => (t.getV 1, t.dt)) = some (0x2A, 0x2A) := by
  decide

/-- T8.2: waiting, with nothing changed. -/
theorem test_waitKey_waits :
    nextOf (run 0xF30A State.reset) id = some (State.reset.withFetchWord 16 0xF30A) ∧
    (transact (.step 0) (State.reset.withFetchWord 16 0xF30A)).2 = .waiting := by decide

/-- T8.4: the least of two keys. -/
theorem test_waitKey :
    nextOf (run 0xF30A (press 9 (press 2 State.reset))) (fun t => (t.getV 3, t.pc, t.key[9])) =
      some (2, 0x202, true) := by decide

/-- T8.6. -/
theorem test_ldDtVx : nextOf (run 0xF015 (State.reset.setV 0 0x3C)) (·.dt) = some 0x3C := by decide

/-- T8.7. -/
theorem test_ldStVx : nextOf (run 0xF218 (State.reset.setV 2 1)) (fun t => (t.st, soundOn t)) = some (1, true) := by decide

/-- T8.9, T8.10. -/
theorem test_addI :
    nextOf (run 0xF11E ((State.reset.setI 0x0FFF).setV 1 1)) (fun t => (t.i, t.getV VF)) = some (0x1000, 0) ∧
    nextOf (run 0xF11E ((State.reset.setI 0xFFFF).setV 1 1)) (·.i) = some 0 := by decide

/-- T8.12, T8.13. -/
theorem test_ldFont :
    nextOf (run 0xF029 (State.reset.setV 0 0x0F)) (·.i) = some 0x4B ∧
    nextOf (run 0xF029 (State.reset.setV 0 0x1A)) (·.i) = some 0x32 := by decide

/-- T8.14. -/
theorem test_bcd :
    nextOf (run 0xF033 ((State.reset.setV 0 0xFE).setI 0x300)) (fun t =>
      (t.mem.read 0x300, t.mem.read 0x301, t.mem.read 0x302)) = some (some 2, some 5, some 4) := by decide

/-- T8.19 and T8.18. -/
theorem test_storeRegs :
    nextOf (run 0xFF55 ((State.reset.setV VF 0x1F).setI 0x300)) (fun t => (t.mem.read 0x30F, t.i)) =
      some (some 0x1F, 0x300) ∧
    nextOf (run 0xF055 (((with12 0xBB 0).setV 0 0xAA).setI 0x300)) (fun t => (t.mem.read 0x300, t.mem.read 0x301)) =
      some (some 0xAA, some 0) := by decide

/-- T8.21. -/
theorem test_loadRegs :
    nextOf (run 0xF265 ((withBytes 0x300 [2, 5, 4, 9] (State.reset.setV 3 0x77)).setI 0x300)) (fun t =>
      (t.getV 0, t.getV 1, t.getV 2, t.getV 3, t.i)) = some (2, 5, 4, 0x77, 0x300) := by decide

/-- T8.20, T8.22: a transfer that leaves memory keeps its earlier part. -/
theorem test_transfer_fault :
    (transact (.step 0) (((with12 0x22 0x33).setV 0 0x11).setI 0x0FFE |>.withFetchWord 16 0xF255)).2 =
      .faulted .outOfBoundsMemory (some 0x1000) ∧
    (transact (.step 0) (((with12 0x22 0x33).setV 0 0x11).setI 0x0FFE |>.withFetchWord 16 0xF255)).1.mem.read 0xFFF =
      some 0x22 ∧
    (transact (.step 0) ((withBytes 0xFFF [0x77] State.reset).setI 0x0FFF |>.withFetchWord 16 0xF165)).1.getV 0 =
      0x77 := by decide

/-! ### Reset and transactions -/

/-- H1: a reset takes a loaded program away and gives an overwritten font back. -/
theorem test_reset :
    (transactAll [.loadProgram [0x12, 0x34], .reset] (withBytes 0 [0xAA] State.reset)).1 = State.reset ∧
    (withBytes 0 [0xAA] State.reset).mem.read 0 = some 0xAA ∧ (transact .reset (withBytes 0 [0xAA] State.reset)).1.mem.read 0 =
      some 0xF0 := by decide

/-- H11: a step of the reset state. -/
theorem test_step_of_reset : faultOf (step State.reset) = some (.invalidOpcode 0 (State.reset.setPc 0x202)) := by decide

/-- H1 and T9.7: the font. -/
theorem test_font :
    State.reset.mem.read 0 = some 0xF0 ∧ State.reset.mem.read 1 = some 0x90 ∧ State.reset.mem.read 0x4F = some 0x80 ∧
    State.reset.mem.read 0x50 = some 0 := by decide

/-- H7. -/
theorem test_ticks :
    (transactAll [.tickTimers, .tickTimers] ((State.reset.setDt 0xFF).setSt 2)).1.dt = 0xFD ∧
    (transactAll [.tickTimers, .tickTimers] ((State.reset.setDt 0xFF).setSt 2)).1.st = 0 ∧
    (tickTimers State.reset).dt = 0 := by decide

/-- H2, H9. -/
theorem test_load_and_keys :
    nextOf (loadProgram [0x12, 0x00] State.reset) (fun t => (t.mem.read 0x200, t.mem.read 0x201, t.pc)) =
      some (some 0x12, some 0, 0x200) ∧
    (setKey 4 false (press 4 State.reset)).key[4] = false := by decide

/-! ### Witnesses: concrete states that meet the hypotheses of the statements -/

/-- A state whose next instruction is the word `w`, the one word its memory lists. -/
def at200 (w : Nat) : State := State.reset.withFetchWord 16 w

/-- Every `OnRow`: a word on each row other than the pattern itself where the row has operands. -/
theorem witness_OnRow :
    (0x00E0 : Word) &&& 0xFFFF = 0x00E0 ∧ (0x00EE : Word) &&& 0xFFFF = 0x00EE ∧ (0x1FFF : Word) &&& 0xF000 = 0x1000 ∧
    (0x2ABC : Word) &&& 0xF000 = 0x2000 ∧ (0x3A42 : Word) &&& 0xF000 = 0x3000 ∧ (0x4A42 : Word) &&& 0xF000 = 0x4000 ∧
    (0x5120 : Word) &&& 0xF00F = 0x5000 ∧ (0x6BFF : Word) &&& 0xF000 = 0x6000 ∧ (0x71FF : Word) &&& 0xF000 = 0x7000 ∧
    (∀ n ∈ [0, 1, 2, 3, 4, 5, 6, 7, 14],
      (BitVec.ofNat 16 (0x8FF0 + n)) &&& 0xF00F = BitVec.ofNat 16 (0x8000 + n)) ∧
    (0x9120 : Word) &&& 0xF00F = 0x9000 ∧ (0xA123 : Word) &&& 0xF000 = 0xA000 ∧ (0xB300 : Word) &&& 0xF000 = 0xB000 ∧
    (0xC10F : Word) &&& 0xF000 = 0xC000 ∧ (0xDFFF : Word) &&& 0xF000 = 0xD000 ∧ (0xEF9E : Word) &&& 0xF0FF = 0xE09E ∧
    (0xE1A1 : Word) &&& 0xF0FF = 0xE0A1 ∧
    (∀ n ∈ [0x07, 0x0A, 0x15, 0x18, 0x1E, 0x29, 0x33, 0x55, 0x65],
      (BitVec.ofNat 16 (0xFF00 + n)) &&& 0xF0FF = BitVec.ofNat 16 (0xF000 + n)) := by decide

/-- `EncodeOfDecodeIsTheWord` and each clause of `DecodeSelectsTheUniqueRow`. -/
theorem witness_decode :
    decode 0xDFFF = .ok (.drw 15 15 15) ∧ wordLegal 0xDFFF = true ∧ wordLegal 0xFFFF = false ∧
    (⟨0xF00F, 0x8004⟩ : OpRow) ∈ opcodeTable ∧ (⟨0xF00F, 0x8004⟩ : OpRow).covers 0x8124 = true := by decide

/-- Each clause of `IllegalWordsAreTheListed`, from the right and, with `0x00E0`, from neither side. -/
theorem witness_IllegalWords :
    (opOf 0x00E1 = 0x0 ∧ (0x00E1 : Word) ≠ 0x00E0 ∧ (0x00E1 : Word) ≠ 0x00EE) ∧ (opOf 0x5121 = 0x5 ∧ nOf 0x5121 ≠ 0) ∧
    (opOf 0x812F = 0x8 ∧ (nOf 0x812F).val = 0xF) ∧ (opOf 0x912F = 0x9 ∧ nOf 0x912F ≠ 0) ∧
    (opOf 0xE19F = 0xE ∧ (nnOf 0xE19F).toNat = 0x9F) ∧ (opOf 0xF166 = 0xF ∧ (nnOf 0xF166).toNat = 0x66) ∧
    decode 0x00E0 ≠ .error (.invalidOpcode 0x00E0) := by decide

/-- `StepRunsTheDecodedInstruction`, at the last PC a word can be fetched from. -/
theorem witness_StepRuns :
    let s := (State.reset.setPc 0xFFE).withFetchWord 16 0x8124
    s.mem.read s.pc.toNat = some 0x81 ∧ s.mem.read (s.pc.toNat + 1) = some 0x24 ∧
    (0x8124 : Word).toNat = (0x81 : Byte).toNat * 256 + (0x24 : Byte).toNat ∧ decode 0x8124 = .ok (.addReg 1 2) := by
  decide

/-- `FetchOutsideMemoryFaults`, at both ends of its range. -/
theorem witness_FetchOutside :
    4095 ≤ (State.reset.setPc 0xFFF).pc.toNat ∧ 4095 ≤ (State.reset.setPc 0xFFFF).pc.toNat := by decide

/-- `IllegalWordFaults`. -/
theorem witness_IllegalWordFaults :
    (at200 0x5121).mem.read 0x200 = some 0x51 ∧ (at200 0x5121).mem.read 0x201 = some 0x21 ∧ wordLegal 0x5121 = false := by
  decide

/-- `PlacedWordRuns`, on both sides of the boundary of PC. -/
theorem witness_PlacedWordRuns :
    (State.reset.setPc 0xFFE).mem.wf = true ∧ (State.reset.setPc 0xFFE).pc.toNat < 4095 ∧
    4095 ≤ (State.reset.setPc 0xFFF).pc.toNat := by decide

/-- `JumpToItselfIsAFixedPoint`. -/
theorem witness_Stopped : Stopped (at200 0x1200) := ⟨0x200, by decide⟩

/-- `WaitingStepChangesNothing`, both directions. -/
theorem witness_Waiting : waiting (at200 0xF30A) = true ∧ (stepWith 0 (at200 0xF30A)).2 = .waiting := by decide

/-- `FaultLeavesPcPastTheInstruction`: a fault of the fetch, of the decode and of an execution. -/
theorem witness_FaultLeavesPc :
    faultOf (step (State.reset.setPc 0xFFF)) = some (.outOfBoundsMemory 0x1000 (State.reset.setPc 0xFFF)) ∧
    faultOf (step (at200 0x5121)) = some (.invalidOpcode 0x5121 ((at200 0x5121).setPc 0x202)) ∧
    faultOf (step (at200 0x00EE)) = some (.stackUnderflow ((at200 0x00EE).setPc 0x202)) ∧
    nextInstr (at200 0x00EE) = some .ret ∧ nextInstr (at200 0xF165) = some (.loadRegs 1) ∧
    nextInstr (at200 0xF133) = some (.bcd 1) := by decide

/-- `FaultLeavesPcPastTheInstruction`, its clauses about a transaction: a step that ends in each kind of fault (T1.7, T4.24, T7.5,
T8.20), and the report of one. -/
theorem witness_FaultReports :
    faultOf (step ((at200 0xF055).setI 0x1000)) = some (.outOfBoundsMemory 0x1000 (((at200 0xF055).setI 0x1000).setPc 0x202)) ∧
    faultOf (step ((at200 0x2ABC).setStack 16 State.reset.stk)) =
      some (.stackOverflow 0x202 (((at200 0x2ABC).setStack 16 State.reset.stk).setPc 0x202)) ∧
    faultOf (step (at200 0x00EE)) = some (.stackUnderflow ((at200 0x00EE).setPc 0x202)) ∧
    faultOf (step (at200 0x8128)) = some (.invalidOpcode 0x8128 ((at200 0x8128).setPc 0x202)) ∧
    faultOf (step ((at200 0xE1A1).setV 1 0x10)) =
      some (.keyIndexOutOfRange 0x10 (((at200 0xE1A1).setV 1 0x10).setPc 0x202)) ∧
    (stepWith 0xA7 (at200 0x8128)).2.isFault = true := by decide

/-- A state with two calls on the stack, its largest return address and its largest PC. -/
def deep : State := ((at200 0x00EE).setStack 2 ((State.reset.stk.set 0 0x1000).set 1 0x0202)).setPc 0x200

/-- `EveryStepKeepsTheInvariant`: a state that meets the invariant, and its step. -/
theorem witness_Inv : deep.Inv ∧ nextOf (step deep) (·.pc) = some 0x202 :=
  ⟨⟨by decide, by decide, by decide, by decide⟩, by decide⟩

/-- `EveryStepKeepsTheInvariant`, its second clause: a state at the largest PC, whose step faults. -/
theorem witness_Inv_fault :
    (State.reset.setPc 0x10FE).Inv ∧
    faultOf (step (State.reset.setPc 0x10FE)) = some (.outOfBoundsMemory 0x10FE (State.reset.setPc 0x10FE)) :=
  ⟨⟨by decide, by decide, by decide, by decide⟩, by decide⟩

/-- `EveryTransactionKeepsTheInvariant`: each transaction from a state that meets the invariant does something there. -/
theorem witness_Transactions :
    (transact .reset deep).1.sp = 0 ∧ (transact (.loadProgram [0x12]) deep).1.mem.read 0x200 = some 0x12 ∧
    (transact (.step 0xA7) deep).1.sp = 1 ∧ (transact .tickTimers (deep.setDt 1)).1.dt = 0 ∧
    (transact (.setKey 15 true) deep).1.key[15] = true ∧ (transact .observe deep).1.sp = 2 := by decide

/-- `ReachableStatesMeetTheInvariant`: a state reached by a load and a step. -/
theorem witness_Reachable :
    Reachable (transactAll [.loadProgram [0x22, 0x00], .step 0] State.reset).1 ∧
    (transactAll [.loadProgram [0x22, 0x00], .step 0] State.reset).1.sp = 1 := ⟨⟨_, rfl⟩, by decide⟩

/-- `MemoriesThatReadAlikeAreEqual`: one memory reached in two ways. -/
theorem witness_MemoriesReadAlike :
    ((Memory.put [] 0x300 1).put 0x300 2).wf = true ∧ (Memory.put [] 0x300 2).wf = true ∧
    ∀ a, ((Memory.put [] 0x300 1).put 0x300 2).read a = (Memory.put [] 0x300 2).read a :=
  ⟨by decide, by decide, fun _ => rfl⟩

/-- `InstructionsWriteOnlyTheirParts` and the arms of `PcAfterCompletion`: instructions that complete, the return at both ends
of its range, a skip taken and not, the wait with a key and without. -/
theorem witness_exec_next :
    (∃ t, exec (.jp 0xFFF) State.reset = .next t) ∧ (∃ t, exec (.call 0xFFF) State.reset = .next t) ∧
    (∃ t, exec (.jpV0 0xFFF) (State.reset.setV 0 0xFF) = .next t) ∧
    (∃ t, exec .ret (State.reset.setStack 1 State.reset.stk) = .next t) ∧
    (∃ t, exec .ret (State.reset.setStack 16 State.reset.stk) = .next t) ∧
    (∃ t, exec (.seImm 0 0) State.reset = .next t ∧ t.pc = State.reset.pc + 2) ∧
    (∃ t, exec (.sneImm 0 0) State.reset = .next t ∧ t.pc = State.reset.pc) ∧
    (∃ t, exec (.waitKey 0) (press 15 State.reset) = .next t) ∧ (∃ t, exec (.waitKey 0) State.reset = .next t) ∧
    (∃ t, exec (.loadRegs 15) State.reset = .next t) :=
  ⟨⟨_, rfl⟩, ⟨_, rfl⟩, ⟨_, rfl⟩, ⟨_, rfl⟩, ⟨_, rfl⟩, ⟨_, rfl, rfl⟩, ⟨_, rfl, rfl⟩, ⟨_, rfl⟩, ⟨_, rfl⟩, ⟨_, rfl⟩⟩

/-- `InstructionsWriteOnlyTheirParts`: bytes, stack entries and pixels just outside and at the edge of what is written. -/
theorem witness_outside :
    ¬ (Instr.bcd 1).storesTo (State.reset.setI 0x300) 0x303 ∧ (Instr.bcd 1).storesTo (State.reset.setI 0x300) 0x302 ∧
    ¬ (Instr.storeRegs 2).storesTo (State.reset.setI 0x300) 0x2FF ∧ (Instr.storeRegs 2).storesTo (State.reset.setI 0x300) 0x302 ∧
    ¬ (Instr.call 0x300).pushesTo State.reset 1 ∧ (Instr.call 0x300).pushesTo State.reset 0 ∧
    ¬ (Instr.drw 0 1 1).drawsTo State.reset 8 0 ∧ (Instr.drw 0 1 1).drawsTo State.reset 7 0 := by
  simp only [Instr.storesTo, Instr.pushesTo, Instr.drawsTo]
  decide

/-- `SoundTimerAndDisplayAreNotReadable`: an instruction that is no draw, a draw, and a draw that faults. -/
theorem witness_SoundTimerAndDisplay :
    (∃ t, exec (.ldVxDt 1) State.reset = .next t) ∧ (∀ x y n, Instr.ldVxDt 1 ≠ .drw x y n) ∧
    (∃ t, exec (.drw 15 15 1) State.reset = .next t) ∧ (∃ f, exec (.drw 15 15 1) (State.reset.setI 0x1000) = .fault f) :=
  ⟨⟨_, rfl⟩, by decide, ⟨_, rfl⟩, ⟨_, rfl⟩⟩

/-- `OnlyRndReadsTheRandomInput`. -/
theorem witness_OnlyRnd : ∀ x nn, nextInstr (at200 0x8124) ≠ some (.rnd x nn) := by
  intro x nn h
  have : nextInstr (at200 0x8124) = some (.addReg 1 2) := by decide
  rw [this] at h
  cases h

/-- `MemoryFaultsExactlyWhen`: the conditions on both sides of their boundaries. -/
theorem witness_MemoryFaults :
    (Instr.drw 0 0 1).accessFaults (State.reset.setI 0x1000) ∧ ¬ (Instr.drw 0 0 1).accessFaults (State.reset.setI 0xFFF) ∧
    ¬ (Instr.drw 0 0 0).accessFaults (State.reset.setI 0xFFFF) ∧ (Instr.bcd 0).accessFaults (State.reset.setI 0xFFE) ∧
    ¬ (Instr.bcd 0).accessFaults (State.reset.setI 0xFFD) ∧ (Instr.storeRegs 1).accessFaults (State.reset.setI 0xFFF) ∧
    ¬ (Instr.storeRegs 0).accessFaults (State.reset.setI 0xFFF) ∧
    (Instr.loadRegs 15).accessFaults (State.reset.setI 0xFF1) ∧
    ¬ (Instr.loadRegs 15).accessFaults (State.reset.setI 0xFF0) ∧
    3584 < (List.replicate 3585 (0 : Byte)).length := by
  simp only [Instr.accessFaults, List.length_replicate]
  decide

/-- `StackAndKeyFaultsExactlyWhen`, at the ends of the range of SP and of the keys. -/
theorem witness_StackAndKey :
    (State.reset.setStack 16 State.reset.stk).sp.toNat ≤ 16 ∧ State.reset.sp.toNat ≤ 16 ∧
    (Instr.skp 1).keyFaults (State.reset.setV 1 0x10) ∧ ¬ (Instr.sknp 1).keyFaults (State.reset.setV 1 0x0F) := by
  simp only [Instr.keyFaults]
  decide

/-- `MemoryWriteThenRead`: a canonical memory, and addresses at the boundary. -/
theorem witness_MemoryWrite : (at200 0x8124).mem.wf = true ∧ 4095 < 4096 ∧ 4096 ≤ 4096 := by decide

/-- `ReturnPopsThePc`, at both ends of the range of SP, and at 0. -/
theorem witness_Return :
    (State.reset.setStack 1 State.reset.stk).sp.toNat = (0 : Fin 16).val + 1 ∧
    (State.reset.setStack 16 State.reset.stk).sp.toNat = (15 : Fin 16).val + 1 ∧ State.reset.sp.toNat = 0 := by decide

/-- `CallPushesTheReturnAddress` and `ReturnUndoesTheCall`, at both ends of the range of SP, and at 16. -/
theorem witness_Call :
    State.reset.sp.toNat = (0 : Fin 16).val ∧ (State.reset.setStack 15 State.reset.stk).sp.toNat = (15 : Fin 16).val ∧
    (State.reset.setStack 15 State.reset.stk).sp.toNat < 16 ∧ (State.reset.setStack 16 State.reset.stk).sp.toNat = 16 := by
  decide

/-- `AddSetsVfToTheCarry` and its like: a destination other than VF. -/
theorem witness_notVf : (14 : Reg) ≠ VF := by decide

/-- `RandomByteUnderTheMask`: a byte at the input, none there, and a next instruction `CXNN`. -/
theorem witness_Random :
    (State.reset.setRnd [0xA7] 0).rndIn = 0xA7 :: [] ∧ State.reset.rndIn = [] ∧
    nextInstr (at200 0xC10F) = some (.rnd 1 0x0F) := by decide

/-- `DrawSpriteXorsEveryPixel`: a sprite of 15 bytes. -/
theorem witness_Sprite : (List.replicate 15 (0xFF : Byte)).length ≤ 15 := by decide

/-- `DrawUsesTheBytesAtIndex`: a sprite that ends at 0xFFF, an empty one, and one that leaves memory. -/
theorem witness_Draw :
    ((State.reset.setI 0xFF1).i.toNat + (15 : Fin 16).val ≤ 4096) ∧ (0 : Fin 16).val = 0 ∧
    ((15 : Fin 16).val ≠ 0 ∧ 4096 < (State.reset.setI 0xFF2).i.toNat + (15 : Fin 16).val) := by decide

/-- `DrawingTwiceRestoresTheDisplay`: the first glyph on a blank display. -/
theorem witness_DrawTwice :
    (0 : Reg) ≠ VF ∧ (1 : Reg) ≠ VF ∧ State.reset.i.toNat + (5 : Fin 16).val ≤ 4096 ∧
    (∀ px py, State.reset.fb.pixel px py = false) ∧
    (∃ r < (5 : Fin 16).val, ∃ b, State.reset.mem.read (dataAddr State.reset r) = some b ∧ b ≠ 0) :=
  ⟨by decide, by decide, by decide, fun px py => by simp [State.reset, Display.pixel, Display.blank],
    ⟨0, by decide, 0xF0, by decide⟩⟩

/-- `KeySkipsReadTheKeyLevel`: the last key, and the first index that is none. -/
theorem witness_KeySkips :
    ((State.reset.setV 1 0x0F).getV 1).toNat = (15 : Fin 16).val ∧ 15 < ((State.reset.setV 1 0x10).getV 1).toNat := by
  decide

/-- `WaitForKeyTakesTheLeastKey`: the last key alone, and no key. -/
theorem witness_WaitForKey :
    (press 15 State.reset).key[15] = true ∧ (∀ j : Fin 16, j < 15 → (press 15 State.reset).key[j] = false) ∧
    (∀ k : Fin 16, State.reset.key[k] = false) := by decide

/-- `BcdStoresThreeDigits`, `StoreRegistersAtIndex`, `LoadRegistersFromIndex`: transfers that end at 0xFFF. -/
theorem witness_Transfers :
    State.reset.mem.wf = true ∧ dataAddr (State.reset.setI 0xFFD) 2 < 4096 ∧
    dataAddr (State.reset.setI 0xFF0) (15 : Reg).val < 4096 := by decide

/-- `TransferFaultKeepsTheEarlierPart`: transfers that leave memory at their last byte, and one that starts outside. -/
theorem witness_TransferFault :
    (State.reset.setI 0xFFE).mem.wf = true ∧ 4096 ≤ dataAddr (State.reset.setI 0xFFE) 2 ∧
    dataAddr (State.reset.setI 0xFFE) 1 < 4096 ∧ 4096 ≤ dataAddr (State.reset.setI 0xFF1) (15 : Reg).val ∧
    dataAddr (State.reset.setI 0xFF1) (14 : Reg).val < 4096 ∧ 4096 ≤ dataAddr (State.reset.setI 0x1000) (0 : Reg).val := by
  decide

/-- `ProgramLoadWritesFrom0x200`: the longest program that fits, and one byte more. -/
theorem witness_ProgramLoad :
    State.reset.mem.wf = true ∧ (List.replicate 3584 (0 : Byte)).length ≤ 3584 ∧
    3584 < (List.replicate 3585 (0 : Byte)).length := by
  simp only [List.length_replicate]
  decide

end Sys2Proof.Tests
end

/-! SUPPORT. What an instruction that completes has done, said once: the operations and the instructions that can fault
by inversion, and every instruction as one of the kinds of change of `Effect`. -/

namespace Sys2Proof.Machine

/-! ### Inversion: what a shared operation has done when it completes -/

theorem andThen_eq_next {r : Result} {k : State → Result} {t : State} (h : andThen r k = .next t) :
    ∃ u, r = .next u ∧ k u = .next t := by
  cases r with
  | next u => exact ⟨u, rfl, h⟩
  | fault f => cases h
  | refused q => cases h

/-- A pop completes with SP from 1 to 16 only. -/
theorem pop_eq_next {s t : State} {k : Word → State → Result} (h : pop s k = .next t) :
    ∃ j : Fin 16, s.sp.toNat = j.val + 1 ∧ k s.stk[j] (s.setStack (s.sp - 1) s.stk) = .next t := by
  rcases Nat.eq_zero_or_pos s.sp.toNat with h0 | h0
  · rw [pop_zero s k (BitVec.eq_of_toNat_eq h0)] at h
    cases h
  · rcases pop_cases s k with h' | ⟨hj, h'⟩ <;> rw [h'] at h
    · cases h
    · exact ⟨⟨_, hj⟩, by simp only [sp_pred_toNat h0]; omega, h⟩

/-- A push completes with SP from 0 to 15 only. -/
theorem push_eq_next {a : Word} {s t : State} (h : push a s = .next t) :
    ∃ j : Fin 16, s.sp.toNat = j.val ∧ t = s.setStack (s.sp + 1) (s.stk.set j a) := by
  by_cases hs : s.sp.toNat < 16
  · rw [push_lt a s hs] at h
    cases h
    exact ⟨⟨_, hs⟩, rfl, rfl⟩
  · rw [push_ge a s (by omega)] at h
    cases h

theorem isPressed_eq_next {s t : State} {k : Byte} {f : Bool → Result} (h : isPressed s k f = .next t) :
    ∃ p, f p = .next t := by
  by_cases hk : k.toNat < 16
  · exact ⟨_, isPressed_lt s f hk ▸ h⟩
  · rw [isPressed_ge s f (by omega)] at h
    cases h

theorem skipIf_eq_next {c : Bool} {s t : State} (h : skipIf c s = .next t) :
    t = s.setPc s.pc ∨ t = s.setPc (s.pc + 2) := by
  rw [skipIf_eq] at h
  cases c <;> cases h
  · exact .inl rfl
  · exact .inr rfl

theorem memWriteAll_eq_next {a : Nat} {bs : List Byte} {s t : State} (hb : bs ≠ [])
    (h : memWriteAll a bs s = .next t) : a + bs.length ≤ 4096 ∧ t = s.setMem (s.mem.putAll a bs) := by
  by_cases hl : a + bs.length ≤ 4096
  · rw [memWriteAll_ok s (.inr hl)] at h
    cases h
    exact ⟨hl, rfl⟩
  · rw [memWriteAll_fault s hb (by omega)] at h
    cases h

theorem loadRegsFrom_eq_next {a : Nat} {l : List Reg} {s t : State} (h : loadRegsFrom a l s = .next t) :
    t = loadFold a l s := by
  induction l generalizing s with
  | nil =>
    cases h
    rfl
  | cons r l ih =>
    rw [loadRegsFrom] at h
    by_cases hr : a + r.val < 4096
    · rw [memRead_lt s _ hr] at h
      exact ih h
    · rw [memRead_ge s _ (by omega)] at h
      cases h

theorem readBytes_length {m : Memory} {a n : Nat} {bs : List Byte} (h : readBytes m a n = .ok bs) :
    bs.length = n := by
  by_cases hn : n = 0 ∨ a + n ≤ 4096
  · rw [readBytes_ok m hn] at h
    cases h
    simp
  · rw [readBytes_error m (by omega) (by omega)] at h
    cases h

/-! ### Inversion: the instructions that can fault, when they complete -/

theorem exec_ret_next {s t : State} (h : exec .ret s = .next t) :
    ∃ k : Fin 16, s.sp.toNat = k.val + 1 ∧ t = (s.setStack (s.sp - 1) s.stk).setPc s.stk[k] := by
  simp only [exec, execRet] at h
  obtain ⟨k, hk, h⟩ := pop_eq_next h
  cases h
  exact ⟨k, hk, rfl⟩

theorem exec_call_next {nnn : Addr12} {s t : State} (h : exec (.call nnn) s = .next t) :
    ∃ k : Fin 16, s.sp.toNat = k.val ∧ t = (s.setStack (s.sp + 1) (s.stk.set k s.pc)).setPc (zext16 nnn) := by
  obtain ⟨u, hu, h⟩ := andThen_eq_next h
  obtain ⟨k, hk, rfl⟩ := push_eq_next hu
  cases h
  exact ⟨k, hk, rfl⟩

/-- A draw of which a byte of the sprite does not exist. -/
theorem exec_drw_error {x y : Reg} {n : Fin 16} {s : State} {a : Nat}
    (h : readBytes s.mem (dataAddr s 0) n.val = .error a) :
    exec (.drw x y n) s = .fault (.outOfBoundsMemory a s) := by
  simp only [exec, execDrw, h, raise_eq]

/-- A draw of which every byte of the sprite exists: VF is the collision. -/
theorem exec_drw_ok {x y : Reg} {n : Fin 16} {s : State} {sprite : List Byte}
    (h : readBytes s.mem (dataAddr s 0) n.val = .ok sprite) :
    exec (.drw x y n) s =
      .next ((s.setFb (drawSprite (s.getV x).toNat (s.getV y).toNat sprite s.fb).1).setV VF
        (flagByte (drawSprite (s.getV x).toNat (s.getV y).toNat sprite s.fb).2)) := by
  simp only [exec, execDrw, h]

theorem exec_drw_next {x y : Reg} {n : Fin 16} {s t : State} (h : exec (.drw x y n) s = .next t) :
    ∃ sprite, readBytes s.mem (dataAddr s 0) n.val = .ok sprite ∧
      t = (s.setFb (drawSprite (s.getV x).toNat (s.getV y).toNat sprite s.fb).1).setV VF
        (flagByte (drawSprite (s.getV x).toNat (s.getV y).toNat sprite s.fb).2) := by
  cases hr : readBytes s.mem (dataAddr s 0) n.val with
  | error a =>
    rw [exec_drw_error hr] at h
    cases h
  | ok sprite =>
    rw [exec_drw_ok hr] at h
    cases h
    exact ⟨sprite, rfl, rfl⟩

theorem exec_bcd_next {x : Reg} {s t : State} (h : exec (.bcd x) s = .next t) :
    dataAddr s 0 + 3 ≤ 4096 ∧ t = s.setMem (s.mem.putAll (dataAddr s 0) (bcdDigits (s.getV x))) :=
  memWriteAll_eq_next (List.cons_ne_nil _ _) h

theorem exec_storeRegs_next {x : Reg} {s t : State} (h : exec (.storeRegs x) s = .next t) :
    dataAddr s 0 + (x.val + 1) ≤ 4096 ∧ t = s.setMem (s.mem.putAll (dataAddr s 0) (valuesUpTo x s)) := by
  obtain ⟨u, hu, h⟩ := andThen_eq_next h
  have hne : valuesUpTo x s ≠ [] := List.ne_nil_of_length_pos (by simp)
  obtain ⟨hl, rfl⟩ := memWriteAll_eq_next hne hu
  cases h
  exact ⟨by simpa using hl, rfl⟩

theorem exec_loadRegs_next {x : Reg} {s t : State} (h : exec (.loadRegs x) s = .next t) :
    t = loadFold (dataAddr s 0) (regsUpTo x) s := by
  obtain ⟨u, hu, h⟩ := andThen_eq_next h
  cases h
  exact loadRegsFrom_eq_next hu

theorem exec_skp_next {x : Reg} {s t : State} (h : exec (.skp x) s = .next t) :
    t = s.setPc s.pc ∨ t = s.setPc (s.pc + 2) := by
  simp only [exec, execSkp] at h
  obtain ⟨p, h⟩ := isPressed_eq_next h
  exact skipIf_eq_next h

theorem exec_sknp_next {x : Reg} {s t : State} (h : exec (.sknp x) s = .next t) :
    t = s.setPc s.pc ∨ t = s.setPc (s.pc + 2) := by
  simp only [exec, execSknp] at h
  obtain ⟨p, h⟩ := isPressed_eq_next h
  exact skipIf_eq_next h

/-- The two outcomes of the wait for a key: a pressed key in Vx, or PC put back with no key pressed. -/
theorem exec_waitKey_cases (x : Reg) (s : State) :
    (∃ k : Fin 16, s.key[k] = true ∧ exec (.waitKey x) s = .next (s.setV x (BitVec.ofNat 8 k.val))) ∨
    ((∀ k : Fin 16, s.key[k] = false) ∧ exec (.waitKey x) s = .next (s.setPc (s.pc - 2))) := by
  cases hk : leastPressed s with
  | some k => exact .inl ⟨k, leastPressed_pressed hk, by simp only [exec, execWaitKey, hk]⟩
  | none => exact .inr ⟨leastPressed_none.mp hk, by simp only [exec, execWaitKey, hk]⟩

/-! ### What an instruction that completes has done -/

/-- `Effect s i t`: the kinds of change by which an instruction `i` takes `s` to `t`. It leaves open the values written,
and says which parts are written and, for the stack and the transfers, the address and the bounds. -/
inductive Effect (s : State) : Instr → State → Prop
  | pc (i : Instr) (w : Word) : Effect s i (s.setPc w)
  | regs (i : Instr) (v : Vector Byte 16) (h : regsOutside i.writesRegs s { s with v := v }) :
      Effect s i { s with v := v }
  | random (x : Reg) (nn b : Byte) : Effect s (.rnd x nn) (s.useRnd.setV x b)
  | index (i : Instr) (w : Word) (h : .i ∈ i.writes) : Effect s i (s.setI w)
  | delay (x : Reg) : Effect s (.ldDtVx x) (s.setDt (s.getV x))
  | sound (x : Reg) : Effect s (.ldStVx x) (s.setSt (s.getV x))
  | clear : Effect s .cls (s.setFb Display.blank)
  | draw (x y : Reg) (n : Fin 16) (sprite : List Byte) (b : Byte) (h : sprite.length = n.val) :
      Effect s (.drw x y n)
        ((s.setFb (drawSprite (s.getV x).toNat (s.getV y).toNat sprite s.fb).1).setV VF b)
  | store (i : Instr) (bs : List Byte) (hb : dataAddr s 0 + bs.length ≤ 4096)
      (h : ∀ a, ¬ i.storesTo s a → a < dataAddr s 0 ∨ dataAddr s 0 + bs.length ≤ a) :
      Effect s i (s.setMem (s.mem.putAll (dataAddr s 0) bs))
  | ret (k : Fin 16) (h : s.sp.toNat = k.val + 1) :
      Effect s .ret ((s.setStack (s.sp - 1) s.stk).setPc s.stk[k])
  | call (nnn : Addr12) (k : Fin 16) (h : s.sp.toNat = k.val) :
      Effect s (.call nnn) ((s.setStack (s.sp + 1) (s.stk.set k s.pc)).setPc (zext16 nnn))

theorem Effect.setV {i : Instr} {x : Reg} (s : State) (b : Byte) (h : i.writesRegs = [x]) :
    Effect s i (s.setV x b) :=
  .regs i _ (h ▸ regsOutside_setV x b s)

theorem Effect.writeThenFlag {i : Instr} {x : Reg} (s : State) (a f : Byte) (h : i.writesRegs = [x, VF]) :
    Effect s i (writeThenFlag x a f s) :=
  .regs i _ (h ▸ regsOutside_writeThenFlag x a f s)

theorem Effect.skip {i : Instr} {s t : State} (h : t = s.setPc s.pc ∨ t = s.setPc (s.pc + 2)) : Effect s i t := by
  rcases h with rfl | rfl <;> exact .pc _ _

/-- `FX65` writes the registers V0 to Vx and no other. -/
theorem Effect.loadFold (x : Reg) (a : Nat) (s : State) : Effect s (.loadRegs x) (loadFold a (regsUpTo x) s) := by
  obtain ⟨v, hv⟩ := loadFold_fields a (regsUpTo x) s
  rw [hv]
  refine .regs _ v fun r hr => ?_
  rw [← hv, loadFold_getV]
  exact if_neg hr

/-- Everything an instruction that completes can do. -/
theorem effect_of_exec_next {i : Instr} {s t : State} (h : exec i s = .next t) : Effect s i t := by
  cases i
  case cls => cases h; exact .clear
  case ret =>
    obtain ⟨k, hk, rfl⟩ := exec_ret_next h
    exact .ret k hk
  case call nnn =>
    obtain ⟨k, hk, rfl⟩ := exec_call_next h
    exact .call nnn k hk
  case jp | jpV0 => cases h; exact .pc _ _
  case seImm | sneImm | seReg | sneReg => exact .skip (skipIf_eq_next h)
  case skp => exact .skip (exec_skp_next h)
  case sknp => exact .skip (exec_sknp_next h)
  case ldImm | addImm | ldReg | orReg | andReg | xorReg | ldVxDt => cases h; exact .setV s _ rfl
  case addReg | subReg | shr | subnReg | shl => cases h; exact .writeThenFlag s _ _ rfl
  case ldI | addI | ldFont => cases h; exact .index _ _ (List.mem_singleton.mpr rfl)
  case rnd x nn => cases h; exact .random x nn _
  case ldDtVx x => cases h; exact .delay x
  case ldStVx x => cases h; exact .sound x
  case drw x y n =>
    obtain ⟨sprite, hr, rfl⟩ := exec_drw_next h
    exact .draw x y n sprite _ (readBytes_length hr)
  case waitKey x =>
    rcases exec_waitKey_cases x s with ⟨k, _, h'⟩ | ⟨_, h'⟩ <;> rw [h'] at h <;> cases h
    · exact .setV s _ rfl
    · exact .pc _ _
  case bcd x =>
    obtain ⟨hl, rfl⟩ := exec_bcd_next h
    refine .store _ _ hl fun a ha => ?_
    simp only [Instr.storesTo, dataAddr_eq, bcdDigits_length] at ha ⊢
    omega
  case storeRegs x =>
    obtain ⟨hl, rfl⟩ := exec_storeRegs_next h
    refine .store _ _ (by simpa using hl) fun a ha => ?_
    simp only [Instr.storesTo, dataAddr_eq, valuesUpTo_length] at ha ⊢
    omega
  case loadRegs x =>
    rw [exec_loadRegs_next h]
    exact .loadFold x _ s

end Sys2Proof.Machine

/-! PROOF. Where PC is after an instruction that completes, and the parts of the state it leaves unchanged. -/

namespace Sys2Proof.Machine

theorem toNat_zext16 {w : Nat} (v : BitVec w) (h : w ≤ 16) : (zext16 v).toNat = v.toNat :=
  BitVec.toNat_setWidth_of_le h

/-! ### Where PC is after an instruction that completes -/

/-- Settles O19: the arms that set PC by their own lemmas; every other arm leaves PC alone. -/
theorem pcAfterCompletion : Obligations.PcAfterCompletion := by
  intro i s t h
  cases i
  case jp nnn =>
    cases h
    exact toNat_zext16 nnn (by omega)
  case call nnn =>
    obtain ⟨k, _, rfl⟩ := exec_call_next h
    exact toNat_zext16 nnn (by omega)
  case jpV0 nnn =>
    cases h
    have hn := nnn.isLt
    have hv := (s.getV 0).isLt
    show (zext16 nnn + zext16 (s.getV 0)).toNat = _
    rw [BitVec.toNat_add, toNat_zext16 _ (by omega), toNat_zext16 _ (by omega)]
    omega
  case ret =>
    obtain ⟨k, hk, rfl⟩ := exec_ret_next h
    exact ⟨k, hk, rfl⟩
  case seImm | sneImm | seReg | sneReg => exact (skipIf_eq_next h).imp (congrArg State.pc) (congrArg State.pc)
  case skp => exact (exec_skp_next h).imp (congrArg State.pc) (congrArg State.pc)
  case sknp => exact (exec_sknp_next h).imp (congrArg State.pc) (congrArg State.pc)
  case waitKey x =>
    rcases exec_waitKey_cases x s with ⟨k, hk, h'⟩ | ⟨hk, h'⟩ <;> rw [h'] at h <;> cases h
    · exact (if_pos ⟨k, hk⟩).symm
    · exact (if_neg fun ⟨k, hp⟩ => by simp [hk k] at hp).symm
  case rnd => cases h; simp
  case drw =>
    obtain ⟨sprite, _, rfl⟩ := exec_drw_next h
    rfl
  case bcd =>
    obtain ⟨_, rfl⟩ := exec_bcd_next h
    rfl
  case storeRegs =>
    obtain ⟨_, rfl⟩ := exec_storeRegs_next h
    rfl
  case loadRegs x =>
    obtain ⟨v, hv⟩ := loadFold_fields (dataAddr s 0) (regsUpTo x) s
    rw [exec_loadRegs_next h, hv]
  all_goals cases h; rfl

/-! ### What an instruction that completes leaves unchanged -/

theorem v_mem_writes {i : Instr} {r : Reg} (h : r ∈ i.writesRegs) : .v ∈ i.writes := by
  cases i <;> simp [Instr.writesRegs, Instr.writes] at h ⊢

theorem mem_mem_writes {i : Instr} {s : State} {a : Nat} (h : i.storesTo s a) : .mem ∈ i.writes := by
  cases i <;> simp [Instr.storesTo, Instr.writes] at h ⊢

theorem stk_mem_writes {i : Instr} {s : State} {k : Fin 16} (h : i.pushesTo s k) : .stk ∈ i.writes := by
  cases i <;> simp [Instr.pushesTo, Instr.writes] at h ⊢

theorem fb_mem_writes {i : Instr} {s : State} {px : Fin 64} {py : Fin 32} (h : i.drawsTo s px py) :
    .fb ∈ i.writes := by
  cases i <;> simp [Instr.drawsTo, Instr.writes] at h ⊢

theorem Effect.regs_outside {i : Instr} {s t : State} (h : Effect s i t) : regsOutside i.writesRegs s t := by
  cases h
  case regs v h => exact h
  case random x nn b => exact fun r hr => (regsOutside_setV x b s.useRnd r hr).trans (s.useRnd_getV r)
  case draw x y n sprite b _ => exact regsOutside_setV VF b _
  all_goals exact fun _ _ => rfl

theorem Effect.read_outside {i : Instr} {s t : State} (h : Effect s i t) {a : Nat} (ha : ¬ i.storesTo s a) :
    t.mem.read a = s.mem.read a := by
  cases h
  case store bs _ h => simp only [Memory.read, State.setMem_mem, Memory.byteAt_putAll_outside _ _ (h a ha)]
  case random => simp
  all_goals rfl

theorem Effect.stk_outside {i : Instr} {s t : State} (h : Effect s i t) {k : Fin 16} (hk : ¬ i.pushesTo s k) :
    t.stk[k] = s.stk[k] := by
  cases h
  case call nnn j hj =>
    have hne : j.val ≠ k.val := fun e => hk (e.symm.trans hj.symm)
    simp [hne]
  case random => simp
  all_goals rfl

theorem Effect.pixel_outside {i : Instr} {s t : State} (h : Effect s i t) {px : Fin 64} {py : Fin 32}
    (hp : ¬ i.drawsTo s px py) : t.fb.pixel px py = s.fb.pixel px py := by
  cases h
  case clear => exact absurd trivial hp
  case draw x y n sprite b hn =>
    exact drawSprite_pixel_outside s.fb fun r hr c hc e => hp ⟨r, hn ▸ hr, c, hc, e⟩
  case random => simp
  all_goals rfl

/-- The parts that are single values, the keys and the random input: each is written only by an instruction that lists
it. -/
theorem Effect.values_outside {i : Instr} {s t : State} (h : Effect s i t) :
    sameOutside (.v :: .mem :: .stk :: .fb :: .pc :: i.writes) s t := by
  rw [sameOutside_iff]
  cases h
  case index w hi => simp [Part.same, hi]
  all_goals simp [Part.same, Instr.writes]

/-- Settles O18: the registers, bytes, stack entries and pixels by the lemma about each, from which the parts they make up
follow, and every other part by `Effect.values_outside`. -/
theorem instructionsWriteOnlyTheirParts : Obligations.InstructionsWriteOnlyTheirParts := by
  intro i s t h
  have he := effect_of_exec_next h
  refine ⟨fun p hp => ?_, he.regs_outside, fun _ => he.read_outside, fun _ => he.stk_outside,
    fun _ _ => he.pixel_outside⟩
  obtain ⟨hpc, hw⟩ : p ≠ .pc ∧ p ∉ i.writes := by simpa using hp
  cases p
  case v => exact fun r => he.regs_outside r (mt v_mem_writes hw)
  case mem => exact fun a => he.read_outside (mt mem_mem_writes hw)
  case stk => exact fun k => he.stk_outside (mt stk_mem_writes hw)
  case fb => exact fun px py => he.pixel_outside (mt fb_mem_writes hw)
  case pc => exact absurd rfl hpc
  all_goals exact he.values_outside _ (by simp [hw])

end Sys2Proof.Machine

/-! PROOF. The invariant, from reset over every step and every transaction; the canonical form of memory; the state
after reset; the key events and the observations. -/

namespace Sys2Proof.Machine

/-! ### The invariant -/

/-- The invariant speaks of memory, SP, PC and the stack alone. -/
theorem State.Inv.congr {s t : State} (h : s.Inv) (hm : t.mem = s.mem) (hsp : t.sp = s.sp) (hstk : t.stk = s.stk)
    (hpc : t.pc.toNat ≤ 0x10FE) : t.Inv where
  mem_wf := hm ▸ h.mem_wf
  sp_le := hsp ▸ h.sp_le
  pc_le := hpc
  stk_le k hk := by
    rw [hstk]
    exact h.stk_le k (hsp ▸ hk)

theorem State.Inv.setPc {s : State} (h : s.Inv) {w : Word} (hw : w.toNat ≤ 0x10FE) : (s.setPc w).Inv :=
  h.congr rfl rfl rfl hw

theorem State.Inv.setRnd {s : State} (h : s.Inv) (l : List Byte) (n : Nat) : (s.setRnd l n).Inv :=
  h.congr rfl rfl rfl h.pc_le

theorem State.Inv.setMem {s : State} (h : s.Inv) {m : Memory} (hm : s.mem.wf = true → m.wf = true) :
    (s.setMem m).Inv :=
  ⟨hm h.mem_wf, h.sp_le, h.pc_le, h.stk_le⟩

/-- An address that can be pushed on a stack with room keeps the live entries in their range. -/
theorem State.Inv.push {s : State} (h : s.Inv) {k : Fin 16} (hk : s.sp.toNat = k.val) {a : Word}
    (ha : a.toNat ≤ 0x1000) : (s.setStack (s.sp + 1) (s.stk.set k a)).Inv := by
  have hsp : (s.sp + 1).toNat = k.val + 1 := by
    have := k.isLt
    rw [BitVec.toNat_add, hk]
    show (k.val + 1) % 256 = _
    omega
  refine ⟨h.mem_wf, ?_, h.pc_le, fun j hj => ?_⟩
  · rw [State.setStack_sp, hsp]
    omega
  · rw [State.setStack_sp, hsp] at hj
    by_cases e : k.val = j.val
    · simpa [e] using ha
    · have := h.stk_le j (by omega)
      simpa [e] using this

/-- A pop leaves fewer live entries. -/
theorem State.Inv.pop {s : State} (h : s.Inv) {k : Fin 16} (hk : s.sp.toNat = k.val + 1) :
    (s.setStack (s.sp - 1) s.stk).Inv := by
  have hsp : (s.sp - 1).toNat = k.val := by
    rw [sp_pred_toNat (by omega), hk]
    rfl
  refine ⟨h.mem_wf, ?_, h.pc_le, fun j hj => h.stk_le j ?_⟩
  · rw [State.setStack_sp, hsp]
    omega
  · rw [State.setStack_sp, hsp] at hj
    omega

/-- Where an instruction that completes leaves PC, from a PC past a word that could be fetched. -/
theorem exec_pc_le {i : Instr} {s t : State} (hs : s.Inv) (hlo : 2 ≤ s.pc.toNat) (hhi : s.pc.toNat ≤ 0x1000)
    (h : exec i s = .next t) : t.pc.toNat ≤ 0x10FE := by
  have hp := pcAfterCompletion i s t h
  cases i <;> dsimp only at hp
  case jp nnn | call nnn =>
    have := nnn.isLt
    omega
  case jpV0 nnn =>
    have := nnn.isLt
    have := (s.getV 0).isLt
    omega
  case ret =>
    obtain ⟨k, hk, e⟩ := hp
    have := hs.stk_le k (by omega)
    rw [e]
    omega
  case seImm | sneImm | seReg | sneReg | skp | sknp => rcases hp with e | e <;> rw [e] <;> bv_omega
  case waitKey => rw [hp]; split <;> bv_omega
  all_goals rw [hp]; omega

/-- An instruction that completes keeps the invariant, from a PC past a word that could be fetched. -/
theorem exec_next_keeps_inv {i : Instr} {s t : State} (hs : s.Inv) (hlo : 2 ≤ s.pc.toNat)
    (hhi : s.pc.toNat ≤ 0x1000) (h : exec i s = .next t) : t.Inv := by
  have hpc := exec_pc_le hs hlo hhi h
  cases effect_of_exec_next h
  case store bs hb _ => exact hs.setMem fun hw => Memory.putAll_wf hw hb
  case ret k hk => exact (hs.pop hk).setPc hpc
  case call nnn k hk => exact (hs.push hk hhi).setPc hpc
  case random => exact hs.congr (by simp) (by simp) (by simp) hpc
  all_goals exact hs.congr rfl rfl rfl hpc

/-- An instruction that faults keeps the invariant. -/
theorem exec_fault_keeps_inv {i : Instr} {s : State} {f : Fault} (hs : s.Inv) (h : exec i s = .fault f) :
    f.after.Inv := by
  rcases exec_fault_cases h with ⟨_, _, _, v, rfl⟩ | ⟨_, _, _, m, hm, rfl⟩ | e
  · exact hs.congr rfl rfl rfl hs.pc_le
  · exact hs.setMem hm
  · rwa [e]

/-- Settles O15, by what a step can do: the fetch faults, the word is illegal, or an instruction runs with PC past it. -/
theorem everyStepKeepsTheInvariant : Obligations.EveryStepKeepsTheInvariant := by
  intro s hs
  have hpc (h : s.pc.toNat < 4095) : (s.pc + 2).toNat = s.pc.toNat + 2 := by bv_omega
  rcases step_cases s with ⟨_, e⟩ | ⟨hlt, _, _, e⟩ | ⟨hlt, i, _, e⟩
  · rw [e]
    refine ⟨nofun, fun f h => ?_⟩
    cases h
    exact hs
  · rw [e]
    refine ⟨nofun, fun f h => ?_⟩
    cases h
    exact hs.setPc (by rw [hpc hlt]; omega)
  · have hs' : (s.setPc (s.pc + 2)).Inv := hs.setPc (by rw [hpc hlt]; omega)
    rw [e]
    exact ⟨fun t => exec_next_keeps_inv hs' (by rw [State.setPc_pc, hpc hlt]; omega)
      (by rw [State.setPc_pc, hpc hlt]; omega), fun f => exec_fault_keeps_inv hs'⟩

/-- Settles O14. -/
theorem resetMeetsTheInvariant : Obligations.ResetMeetsTheInvariant where
  mem_wf := rfl
  sp_le := by decide
  pc_le := by decide
  stk_le k hk := absurd hk (Nat.not_lt_zero _)

/-- What a result leaves meets the invariant where each of its outcomes does. -/
theorem settle_keeps_inv {s : State} {r : Result} (ok : Report) (hs : s.Inv) (hn : ∀ t, r = .next t → t.Inv)
    (hf : ∀ f, r = .fault f → f.after.Inv) : (settle ok s r).1.Inv := by
  cases r with
  | next t => exact hn t rfl
  | fault f => exact hf f rfl
  | refused q => exact hs

theorem loadProgram_keeps_inv {s : State} (bytes : List Byte) (hs : s.Inv) :
    (settle .done s (loadProgram bytes s)).1.Inv := by
  rcases memWriteAll_cases s Config.progBase bytes with ⟨m, e, hm⟩ | ⟨a, m, e, hm⟩ <;>
    rw [loadProgram, e] <;> exact hs.setMem hm

theorem stepWith_keeps_inv {s : State} (rnd : Byte) (hs : s.Inv) : (stepWith rnd s).1.Inv := by
  obtain ⟨hn, hf⟩ := everyStepKeepsTheInvariant _ (hs.setRnd [rnd] s.draws)
  exact (settle_keeps_inv _ hs hn hf).setRnd s.rndIn s.draws

theorem tickTimers_keeps_inv {s : State} (hs : s.Inv) : (tickTimers s).Inv := by
  unfold tickTimers
  split <;> split <;> exact hs.congr rfl rfl rfl hs.pc_le

/-- Settles O60, one case for each transaction. -/
theorem everyTransactionKeepsTheInvariant : Obligations.EveryTransactionKeepsTheInvariant := by
  intro t s hs
  cases t with
  | reset => exact resetMeetsTheInvariant
  | loadProgram bytes => exact loadProgram_keeps_inv bytes hs
  | step rnd => exact stepWith_keeps_inv rnd hs
  | tickTimers => exact tickTimers_keeps_inv hs
  | setKey index pressed => exact hs.congr rfl rfl rfl hs.pc_le
  | observe => exact hs

theorem transactAll_keeps_inv (ts : List Transaction) {s : State} (hs : s.Inv) : (transactAll ts s).1.Inv := by
  induction ts generalizing s with
  | nil => exact hs
  | cons t ts ih => exact ih (everyTransactionKeepsTheInvariant t s hs)

/-- Settles O16, by induction on the transactions. -/
theorem reachableStatesMeetTheInvariant : Obligations.ReachableStatesMeetTheInvariant := by
  rintro _ ⟨ts, rfl⟩
  exact transactAll_keeps_inv ts resetMeetsTheInvariant

/-! ### The canonical memory and the memory after reset -/

@[simp] theorem Memory.byteAt_cons_same (a : Nat) (b : Byte) (m : Memory) : Memory.byteAt ((a, b) :: m) a = b := by
  simp [Memory.byteAt]

theorem Memory.byteAt_cons_ne {a c : Nat} (b : Byte) (m : Memory) (h : a ≠ c) :
    Memory.byteAt ((a, b) :: m) c = m.byteAt c := by
  simp [Memory.byteAt, h]

/-- A memory that reads at the first address of a canonical one as that does has no later first address: below its first
address it would read the reset content, which a canonical memory does not list. -/
theorem Memory.not_wfFrom_of_byteAt_eq {lo lo' a : Nat} {b : Byte} {m m' : Memory}
    (h : Memory.wfFrom lo ((a, b) :: m) = true) (he : Memory.byteAt ((a, b) :: m) a = m'.byteAt a) (ha : a < lo') :
    ¬ Memory.wfFrom lo' m' = true := by
  intro h'
  obtain ⟨_, _, hb, _⟩ := Memory.wfFrom_cons.mp h
  rw [Memory.byteAt_cons_same, Memory.byteAt_of_lt h' ha] at he
  exact hb he

/-- By induction on one memory: the two have the same first address and byte there, and the rests read alike. -/
theorem Memory.eq_of_byteAt_eq {m m' : Memory} {lo : Nat} (h : Memory.wfFrom lo m = true)
    (h' : Memory.wfFrom lo m' = true) (he : ∀ a < 4096, m.byteAt a = m'.byteAt a) : m = m' := by
  induction m generalizing m' lo with
  | nil =>
    match m' with
    | [] => rfl
    | (a, b) :: m' =>
      have ha := (Memory.wfFrom_cons.mp h').2.1
      exact absurd rfl (Memory.not_wfFrom_of_byteAt_eq (m' := []) h' (he a ha).symm (Nat.lt_succ_self a))
  | cons p m ih =>
    obtain ⟨a, b⟩ := p
    obtain ⟨hlo, ha, hb, hm⟩ := Memory.wfFrom_cons.mp h
    match m' with
    | [] => exact absurd rfl (Memory.not_wfFrom_of_byteAt_eq (m' := []) h (he a ha) (Nat.lt_succ_self a))
    | (a', b') :: m' =>
      obtain ⟨hlo', ha', hb', hm'⟩ := Memory.wfFrom_cons.mp h'
      have hle : ¬ a < a' := fun hlt => Memory.not_wfFrom_of_byteAt_eq h (he a ha) hlt
        (Memory.wfFrom_cons.mpr ⟨le_rfl, ha', hb', hm'⟩)
      have hge : ¬ a' < a := fun hlt => Memory.not_wfFrom_of_byteAt_eq h' (he a' ha').symm hlt
        (Memory.wfFrom_cons.mpr ⟨le_rfl, ha, hb, hm⟩)
      obtain rfl : a = a' := by omega
      obtain rfl : b = b' := by simpa using he a ha
      congr 1
      refine ih hm hm' fun c hc => ?_
      by_cases hac : c ≤ a
      · rw [Memory.byteAt_of_lt hm (by omega), Memory.byteAt_of_lt hm' (by omega)]
      · have := he c hc
        rwa [Memory.byteAt_cons_ne b m (by omega), Memory.byteAt_cons_ne b m' (by omega)] at this

/-- Settles O17. -/
theorem memoriesThatReadAlikeAreEqual : Obligations.MemoriesThatReadAlikeAreEqual := by
  intro m m' h h' he
  refine Memory.eq_of_byteAt_eq h h' fun a ha => ?_
  have := he a
  rwa [Memory.read_lt ha, Memory.read_lt ha, Option.some.injEq] at this

theorem read_reset_lt {a : Nat} (h : a < 4096) : State.reset.mem.read a = some (font.getD a 0) := Memory.read_lt h

theorem length_font : font.length = 80 := rfl

/-- Settles O25. -/
theorem memoryAfterReset : Obligations.MemoryAfterReset := by
  refine ⟨length_font, fun a ha => ?_, fun a hlo hhi => ?_, fun a ha => Memory.read_ge ha⟩
  · rw [read_reset_lt (by omega), List.getD_eq_getElem?_getD, List.getElem?_eq_getElem ha]
    rfl
  · rw [read_reset_lt hhi, List.getD_eq_default _ _ hlo]

/-- Settles O26. -/
theorem resetValues : Obligations.ResetValues := by
  intro s
  obtain ⟨hlen, hfont, hzero, hnone⟩ := memoryAfterReset
  exact ⟨State.reset, rfl, rfl, rfl, rfl, rfl, rfl, by decide, by decide, by decide, Display.pixel_blank, hlen, hfont,
    hzero, hnone, rfl⟩

/-! ### Key events and observations -/

theorem setKey_same (k : Fin 16) (p : Bool) (s : State) : (setKey k p s).key[k] = p := by
  simp [setKey]

theorem setKey_ne (p : Bool) (s : State) {k j : Fin 16} (h : j ≠ k) : (setKey k p s).key[j] = s.key[j] := by
  have : k.val ≠ j.val := fun e => h (Fin.ext e.symm)
  simp [setKey, this]

theorem sameOutside_setKey (k : Fin 16) (p : Bool) (s : State) : sameOutside [.key] s (setKey k p s) := by
  simp [sameOutside_iff, Part.same, setKey]

/-- Settles O57. -/
theorem setKeyAndObserve : Obligations.SetKeyAndObserve := fun s =>
  ⟨fun k p => ⟨setKey k p s, rfl, setKey_same k p s, fun _ => setKey_ne p s, sameOutside_setKey k p s⟩,
    observe s, rfl, fun _ _ => rfl, rfl, rfl, decide_eq_true_iff⟩

end Sys2Proof.Machine

/-! PROOF. The sound timer and the display influence nothing else: every operation commutes with a change of the two. -/

namespace Sys2Proof.Machine

/-! ### ST and the display cannot be read -/

/-- Any change of the two outputs that no instruction reads but the display by `DXYN`: ST by `f`, the display by `e`. -/
def State.mapOutputs (f : Byte → Byte) (e : Display → Display) (s : State) : State :=
  { s with st := f s.st, fb := e s.fb }

/-- A fault with the state it leaves changed. -/
def Fault.mapAfter (g : State → State) : Fault → Fault
  | .outOfBoundsMemory a s => .outOfBoundsMemory a (g s)
  | .stackOverflow w s => .stackOverflow w (g s)
  | .stackUnderflow s => .stackUnderflow (g s)
  | .invalidOpcode w s => .invalidOpcode w (g s)
  | .keyIndexOutOfRange k s => .keyIndexOutOfRange k (g s)

@[simp] theorem Fault.kind_mapAfter (g : State → State) (f : Fault) : (f.mapAfter g).kind = f.kind := by
  cases f <;> rfl

@[simp] theorem Fault.info_mapAfter (g : State → State) (f : Fault) : (f.mapAfter g).info = f.info := by
  cases f <;> rfl

@[simp] theorem Fault.after_mapAfter (g : State → State) (f : Fault) : (f.mapAfter g).after = g f.after := by
  cases f <;> rfl

/-- A result with the state it leaves changed. -/
def mapState (g : State → State) : Result → Result
  | .next s => .next (g s)
  | .fault f => .fault (f.mapAfter g)
  | .refused q => .refused q

@[simp] theorem mapState_next (g : State → State) (s : State) : mapState g (.next s) = .next (g s) := rfl

@[simp] theorem mapState_fault (g : State → State) (f : Fault) :
    mapState g (.fault f) = .fault (f.mapAfter g) := rfl

/-- What runs after a result that does not see the change does not see it either. -/
theorem andThen_mapState {g : State → State} {r : Result} {k : State → Result}
    (hk : ∀ s, k (g s) = mapState g (k s)) : andThen (mapState g r) k = mapState g (andThen r k) := by
  cases r with
  | next s => exact hk s
  | fault f => rfl
  | refused q => rfl

section Outputs

variable (f : Byte → Byte) (e : Display → Display)

theorem memRead_mapOutputs {s : State} {a : Nat} {k k' : Byte → Result}
    (hk : ∀ b, k' b = mapState (State.mapOutputs f e) (k b)) :
    memRead (s.mapOutputs f e) a k' = mapState (State.mapOutputs f e) (memRead s a k) := by
  by_cases ha : a < 4096
  · rw [memRead_lt _ _ ha, memRead_lt _ _ ha]
    exact hk _
  · rw [memRead_ge _ _ (by omega), memRead_ge _ _ (by omega)]
    rfl

theorem memWriteAll_mapOutputs (a : Nat) (bs : List Byte) (s : State) :
    memWriteAll a bs (s.mapOutputs f e) = mapState (State.mapOutputs f e) (memWriteAll a bs s) := by
  by_cases h : bs = [] ∨ a + bs.length ≤ 4096
  · rw [memWriteAll_ok _ h, memWriteAll_ok _ h]
    rfl
  · obtain ⟨hb, hl⟩ := not_or.mp h
    rw [memWriteAll_fault _ hb (by omega), memWriteAll_fault _ hb (by omega)]
    rfl

theorem loadRegsFrom_mapOutputs (a : Nat) (l : List Reg) (s : State) :
    loadRegsFrom a l (s.mapOutputs f e) = mapState (State.mapOutputs f e) (loadRegsFrom a l s) := by
  induction l generalizing s with
  | nil => rfl
  | cons r l ih => exact memRead_mapOutputs f e fun b => ih (s.setV r b)

theorem push_mapOutputs (a : Word) (s : State) :
    push a (s.mapOutputs f e) = mapState (State.mapOutputs f e) (push a s) := by
  by_cases h : s.sp.toNat < 16
  · rw [push_lt a s h, push_lt a (s.mapOutputs f e) h]
    rfl
  · rw [push_ge a s (by omega), push_ge a (s.mapOutputs f e) (Nat.not_lt.mp h)]
    rfl

theorem pop_mapOutputs {s : State} {k : Word → State → Result}
    (hk : ∀ a t, k a (t.mapOutputs f e) = mapState (State.mapOutputs f e) (k a t)) :
    pop (s.mapOutputs f e) k = mapState (State.mapOutputs f e) (pop s k) := by
  unfold pop
  by_cases h : (s.sp - 1).toNat < 16
  · rw [dif_pos h, dif_pos (show ((s.mapOutputs f e).sp - 1).toNat < 16 from h)]
    exact hk _ (s.setStack (s.sp - 1) s.stk)
  · rw [dif_neg h, dif_neg (show ¬ ((s.mapOutputs f e).sp - 1).toNat < 16 from h)]
    rfl

theorem skipIf_mapOutputs (c : Bool) (s : State) :
    skipIf c (s.mapOutputs f e) = mapState (State.mapOutputs f e) (skipIf c s) := by
  cases c <;> rfl

theorem isPressed_mapOutputs {s : State} {b : Byte} {k k' : Bool → Result}
    (hk : ∀ p, k' p = mapState (State.mapOutputs f e) (k p)) :
    isPressed (s.mapOutputs f e) b k' = mapState (State.mapOutputs f e) (isPressed s b k) := by
  by_cases h : b.toNat < 16
  · rw [isPressed_lt _ _ h, isPressed_lt _ _ h]
    exact hk _
  · rw [isPressed_ge _ _ (by omega), isPressed_ge _ _ (by omega)]
    rfl

theorem execWaitKey_mapOutputs (x : Reg) (s : State) :
    execWaitKey x (s.mapOutputs f e) = mapState (State.mapOutputs f e) (execWaitKey x s) := by
  unfold execWaitKey
  rw [show leastPressed (s.mapOutputs f e) = leastPressed s from rfl]
  cases leastPressed s <;> rfl

theorem execRnd_mapOutputs (x : Reg) (nn : Byte) (s : State) :
    execRnd x nn (s.mapOutputs f e) = mapState (State.mapOutputs f e) (execRnd x nn s) := by
  unfold execRnd
  have hu : (s.mapOutputs f e).useRnd = s.useRnd.mapOutputs f e := by
    cases hr : s.rndIn with
    | cons b l => rw [(s.useRnd_cons hr).2, ((s.mapOutputs f e).useRnd_cons hr).2]; rfl
    | nil => rw [(s.useRnd_nil hr).2, ((s.mapOutputs f e).useRnd_nil hr).2]; rfl
  rw [hu]
  rfl

/-- The draw reads the display for its collision only: it does not see ST, and a draw that faults does not see the
display. -/
theorem exec_drw_mapOutputs {x y : Reg} {n : Fin 16} {s : State}
    (h : e = id ∨ ∃ q, exec (.drw x y n) s = .fault q) :
    exec (.drw x y n) (s.mapOutputs f e) = mapState (State.mapOutputs f e) (exec (.drw x y n) s) := by
  cases hr : readBytes s.mem (dataAddr s 0) n.val with
  | error a =>
    rw [exec_drw_error hr, exec_drw_error (s := s.mapOutputs f e) hr]
    rfl
  | ok sprite =>
    rw [exec_drw_ok hr, exec_drw_ok (s := s.mapOutputs f e) hr]
    rcases h with rfl | ⟨q, hq⟩
    · rfl
    · rw [exec_drw_ok hr] at hq
      cases hq

/-- From a state with ST and the display changed an instruction does as from the state itself, with the outputs changed in
the same way but for the one it writes over (`FX18` and `00E0`). A draw that completes is left out where the display is
changed. -/
theorem exec_mapOutputs {i : Instr} {s : State}
    (h : e = id ∨ (∀ x y n, i ≠ .drw x y n) ∨ ∃ q, exec i s = .fault q) :
    ∃ f' e', (f = id → f' = id) ∧ (e = id → e' = id) ∧
      exec i (s.mapOutputs f e) = mapState (State.mapOutputs f' e') (exec i s) := by
  cases i
  case cls => exact ⟨f, id, id, fun _ => rfl, rfl⟩
  case ldStVx => exact ⟨id, e, fun _ => rfl, id, rfl⟩
  all_goals refine ⟨f, e, id, id, ?_⟩
  case ret =>
    simp only [exec, execRet]
    exact pop_mapOutputs f e fun _ _ => rfl
  case call nnn =>
    simp only [exec, execCall]
    rw [← andThen_mapState fun _ => rfl, ← push_mapOutputs]
    rfl
  case seImm | sneImm | seReg | sneReg => exact skipIf_mapOutputs f e _ s
  case skp => exact isPressed_mapOutputs f e fun p => skipIf_mapOutputs f e p s
  case sknp => exact isPressed_mapOutputs f e fun p => skipIf_mapOutputs f e (!p) s
  case waitKey x => exact execWaitKey_mapOutputs f e x s
  case rnd x nn => exact execRnd_mapOutputs f e x nn s
  case drw x y n => exact exec_drw_mapOutputs f e (h.imp_right fun h => h.resolve_left fun h => h x y n rfl)
  case bcd x => exact memWriteAll_mapOutputs f e _ _ s
  case storeRegs x =>
    simp only [exec, execStoreRegs]
    rw [← andThen_mapState fun _ => rfl, ← memWriteAll_mapOutputs]
    rfl
  case loadRegs x =>
    simp only [exec, execLoadRegs]
    rw [← andThen_mapState fun _ => rfl, ← loadRegsFrom_mapOutputs]
    rfl
  all_goals rfl

end Outputs

theorem exec_setSt (i : Instr) (s : State) (b : Byte) :
    ∃ g, (∀ u, sameOutside [.st] u (g u)) ∧ exec i (s.setSt b) = mapState g (exec i s) := by
  obtain ⟨f', e', _, he, h⟩ := exec_mapOutputs (i := i) (s := s) (fun _ => b) id (.inl rfl)
  obtain rfl := he rfl
  exact ⟨_, fun u => by simp [sameOutside_iff, Part.same, State.mapOutputs, State.getV], h⟩

theorem exec_setFb {i : Instr} {s : State} (d : Display)
    (hi : (∀ x y n, i ≠ .drw x y n) ∨ ∃ q, exec i s = .fault q) :
    ∃ g, (∀ u, sameOutside [.fb] u (g u)) ∧ exec i (s.setFb d) = mapState g (exec i s) := by
  obtain ⟨f', e', hf, _, h⟩ := exec_mapOutputs id (fun _ => d) (.inr hi)
  obtain rfl := hf rfl
  exact ⟨_, fun u => by simp [sameOutside_iff, Part.same, State.mapOutputs, State.getV], h⟩

/-- A draw that completes writes nothing but the display and VF, and completes whatever the display. -/
theorem exec_drw_setFb {x y : Reg} {n : Fin 16} {s t : State} (d : Display) (h : exec (.drw x y n) s = .next t) :
    ∃ u, exec (.drw x y n) (s.setFb d) = .next u ∧ sameOutside [.fb, .v] t u ∧ regsOutside [VF] t u := by
  obtain ⟨sprite, hr, rfl⟩ := exec_drw_next h
  refine ⟨_, exec_drw_ok (s := s.setFb d) hr, by simp [sameOutside_iff, Part.same], fun r hr => ?_⟩
  have hr : r ≠ VF := by simpa using hr
  simp [State.getV_setV, hr]

/-- Settles O20: for ST by `exec_setSt`, for the display by `exec_setFb`, and for a draw that completes by its own
lemma. -/
theorem soundTimerAndDisplayAreNotReadable : Obligations.SoundTimerAndDisplayAreNotReadable := by
  refine ⟨fun i s t b h => ?_, fun i s t d h hi => ?_, fun x y n s t d h => exec_drw_setFb d h, fun i s f b h => ?_,
    fun i s f d h => ?_⟩
  · obtain ⟨g, hg, he⟩ := exec_setSt i s b
    exact ⟨g t, by rw [he, h, mapState_next], hg t⟩
  · obtain ⟨g, hg, he⟩ := exec_setFb d (.inl hi)
    exact ⟨g t, by rw [he, h, mapState_next], hg t⟩
  · obtain ⟨g, hg, he⟩ := exec_setSt i s b
    exact ⟨f.mapAfter g, by rw [he, h, mapState_fault], by simp, by simp, by simpa using hg f.after⟩
  · obtain ⟨g, hg, he⟩ := exec_setFb d (.inr ⟨f, h⟩)
    exact ⟨f.mapAfter g, by rw [he, h, mapState_fault], by simp, by simp, by simpa using hg f.after⟩

end Sys2Proof.Machine

/-! PROOF. Single memory accesses, and a program load as one run of writes: the bytes it leaves, read back in terms of
`Memory.read`. -/

namespace Sys2Proof.Machine

theorem sameOutside_setMem (s : State) (m : Memory) : sameOutside [.mem] s (s.setMem m) := by
  simp [sameOutside_iff, Part.same]

/-! ### Reads through the checked path over writes -/

theorem Memory.read_put_ne (m : Memory) {a c : Nat} (b : Byte) (h : a ≠ c) : (m.put a b).read c = m.read c := by
  simp only [Memory.read, Memory.byteAt_put_ne m b h]

theorem Memory.read_putAll_outside (m : Memory) {a c : Nat} (bs : List Byte) (h : c < a ∨ a + bs.length ≤ c) :
    (m.putAll a bs).read c = m.read c := by
  simp only [Memory.read, Memory.byteAt_putAll_outside m bs h]

theorem Memory.read_putAll_inside {m : Memory} {a : Nat} {bs : List Byte} (h : m.wf = true)
    (ha : a + bs.length ≤ 4096) {k : Nat} {b : Byte} (hb : bs[k]? = some b) :
    (m.putAll a bs).read (a + k) = some b := by
  obtain ⟨hk, rfl⟩ := List.getElem?_eq_some_iff.mp hb
  rw [Memory.read_lt (by omega), Memory.byteAt_putAll_inside h ha hk]

/-- Settles O24. -/
theorem memoryWriteThenRead : Obligations.MemoryWriteThenRead := by
  refine ⟨fun s a ha => ?_, fun s a b hw ha => ?_, fun s a b => memWrite_ge s b, fun s a k => memRead_ge s k⟩
  · exact ⟨s.mem.byteAt a, Memory.read_lt ha, fun k => memRead_lt s k ha⟩
  · refine ⟨s.setMem (s.mem.put a b), memWrite_lt s b ha, sameOutside_setMem s _, fun k => ?_,
      fun c hc => Memory.read_put_ne s.mem b hc.symm⟩
    rw [memRead_lt _ k ha, State.setMem_mem, Memory.byteAt_put_same a b hw]

/-! ### Loading a program -/

/-- R65: 3584 bytes lie from 0x200 up to 0xFFF. -/
theorem transact_loadProgram_le {bytes : List Byte} (s : State) (h : bytes.length ≤ 3584) :
    transact (.loadProgram bytes) s = (s.setMem (s.mem.putAll 0x200 bytes), .done) := by
  have hrun := memWriteAll_ok s (a := 0x200) (bs := bytes) (.inr (by omega))
  rw [transact, loadProgram, Config.progBase, hrun, settle]

/-- R65, D25: the first byte that does not fit is the one for address 0x1000. -/
theorem transact_loadProgram_gt {bytes : List Byte} (s : State) (h : 3584 < bytes.length) :
    transact (.loadProgram bytes) s =
      (s.setMem (s.mem.putAll 0x200 (bytes.take 3584)), .faulted .outOfBoundsMemory (some 0x1000)) := by
  have hne : bytes ≠ [] := List.ne_nil_of_length_pos (by omega)
  have hrun := memWriteAll_fault s (a := 0x200) hne (by omega)
  rw [transact, loadProgram, Config.progBase, hrun]
  rfl

/-- Settles O59: both kinds of load are one run of writes, of the whole program or of its first 3584 bytes. -/
theorem programLoadWritesFrom0x200 : Obligations.ProgramLoadWritesFrom0x200 := by
  intro bytes s hw
  refine ⟨fun hle => ?_, fun hgt => ?_⟩
  · exact ⟨_, transact_loadProgram_le s hle, fun k b => Memory.read_putAll_inside hw (by omega),
      fun a => Memory.read_putAll_outside s.mem bytes, sameOutside_setMem s _⟩
  · have hlen : (bytes.take 3584).length = 3584 := List.length_take_of_le hgt.le
    refine ⟨_, transact_loadProgram_gt s hgt, fun k b hk hb => ?_,
      fun a ha => Memory.read_putAll_outside s.mem _ (.inl ha), sameOutside_setMem s _⟩
    exact Memory.read_putAll_inside hw (by omega) (by rwa [List.getElem?_take_of_lt hk])

end Sys2Proof.Machine

/-! PROOF. The decoder and the encoder are inverse to each other, and the decoder agrees with the opcode table. -/

namespace Sys2Proof

/-! ### A word from its fields -/

/-- A word is its top nibble before its twelve low bits. -/
theorem encNNN_of_op {w : Word} {op : BitVec 4} (ho : opOf w = op.toNat) : encNNN op (nnnOf w) = w := by
  have hop : w.extractLsb' 12 4 = op := BitVec.eq_of_toNat_eq ho
  rw [← hop]
  exact (BitVec.extractLsb'_append_extractLsb'_eq_extractLsb' (x := w) rfl).trans (slice_self w)

theorem xOf_append_nnOf (w : Word) : (BitVec.ofFin (xOf w) : BitVec 4) ++ nnOf w = nnnOf w :=
  BitVec.extractLsb'_append_extractLsb'_eq_extractLsb' (x := w) (start₁ := 0) (len₁ := 8) (len₂ := 4) rfl

theorem yOf_append_nOf (w : Word) : (BitVec.ofFin (yOf w) : BitVec 4) ++ (BitVec.ofFin (nOf w) : BitVec 4) = nnOf w :=
  BitVec.extractLsb'_append_extractLsb'_eq_extractLsb' (x := w) (start₁ := 0) (len₁ := 4) (len₂ := 4) rfl

theorem encXNN_of_op {w : Word} {op : BitVec 4} (ho : opOf w = op.toNat) : encXNN op (xOf w) (nnOf w) = w := by
  rw [encXNN_eq, xOf_append_nnOf, encNNN_of_op ho]

theorem encXYN_of_op {w : Word} {op : BitVec 4} (ho : opOf w = op.toNat) :
    encXYN op (xOf w) (yOf w) (BitVec.ofFin (nOf w)) = w := by
  rw [encXYN_eq, yOf_append_nOf, xOf_append_nnOf, encNNN_of_op ho]

/-- Format `XLL`: the low byte is a key. -/
theorem encXNN_of_keys {w : Word} {op : BitVec 4} {nn : Byte} (ho : opOf w = op.toNat)
    (hn : (nnOf w).toNat = nn.toNat) : encXNN op (xOf w) nn = w := by
  rw [← BitVec.eq_of_toNat_eq hn, encXNN_of_op ho]

/-- Format `XYL`: the low nibble is a key. -/
theorem encXYN_of_keys {w : Word} {op n : BitVec 4} (ho : opOf w = op.toNat) (hn : (nOf w).val = n.toNat) :
    encXYN op (xOf w) (yOf w) n = w := by
  have h : (BitVec.ofFin (nOf w) : BitVec 4) = n := BitVec.eq_of_toNat_eq hn
  rw [← h, encXYN_of_op ho]

/-! ### Decoding an encoded word -/

/-- Each constructor by the fields of its format. -/
theorem decode_encode (i : Instr) : decode (encode i) = .ok i := by
  cases i
  case cls | ret => rfl
  case ldReg | orReg | andReg | xorReg | addReg | subReg | shr | subnReg | shl => simp [encode, decode, decode8]
  case skp | sknp => simp [encode, decode, decodeE]
  case ldVxDt | waitKey | ldDtVx | ldStVx | addI | ldFont | bcd | storeRegs | loadRegs =>
    simp [encode, decode, decodeF]
  all_goals simp [encode, decode]

/-- Settles O1: the two bytes in memory order make up the word again. -/
theorem decodeOfEncodeIsTheInstruction : Obligations.DecodeOfEncodeIsTheInstruction := by
  refine fun i rest => ⟨decode_encode i, ?_⟩
  simp only [encodeBytes, List.cons_append, List.nil_append, decodeBytes, wordOfBytes_high_low, decode_encode]
  rfl

/-! ### Everything the decoder can answer -/

/-- The illegal words of R77, family by family. -/
def IllegalWord (w : Word) : Prop :=
  (opOf w = 0x0 ∧ w ≠ 0x00E0 ∧ w ≠ 0x00EE) ∨
  (opOf w = 0x5 ∧ nOf w ≠ 0) ∨
  (opOf w = 0x8 ∧ (nOf w).val ∈ [0x8, 0x9, 0xA, 0xB, 0xC, 0xD, 0xF]) ∨
  (opOf w = 0x9 ∧ nOf w ≠ 0) ∨
  (opOf w = 0xE ∧ (nnOf w).toNat ∉ [0x9E, 0xA1]) ∨
  (opOf w = 0xF ∧ (nnOf w).toNat ∉ [0x07, 0x0A, 0x15, 0x18, 0x1E, 0x29, 0x33, 0x55, 0x65])

/-- The answer `r` is right for the word `w`: an instruction whose word is `w`, or the error for an illegal word. -/
def Decoded (w : Word) (r : Except DecodeError Instr) : Prop :=
  (∃ i, r = .ok i ∧ encode i = w) ∨ (r = .error (.invalidOpcode w) ∧ IllegalWord w)

theorem Decoded.ok {w : Word} (i : Instr) (h : encode i = w) : Decoded w (.ok i) := .inl ⟨i, rfl, h⟩

theorem Decoded.illegal {w : Word} (h : IllegalWord w) : Decoded w (.error (.invalidOpcode w)) := .inr ⟨rfl, h⟩

theorem decoded_decode0 {w : Word} (ho : opOf w = 0x0) : Decoded w (decode0 w) := by
  unfold decode0
  split
  case isTrue h => exact .ok _ h.symm
  case isFalse h =>
    split
    case isTrue h' => exact .ok _ h'.symm
    case isFalse h' => exact .illegal (.inl ⟨ho, h, h'⟩)

theorem decoded_decode8 {w : Word} (ho : opOf w = 0x8) : Decoded w (decode8 w) := by
  unfold decode8
  split
  case h_10 =>
    have := (nOf w).isLt
    refine .illegal (.inr (.inr (.inl ⟨ho, ?_⟩)))
    simp only [imp_false, List.mem_cons, List.not_mem_nil, or_false] at *
    omega
  all_goals exact .ok _ (encXYN_of_keys ho ‹_›)

theorem decoded_decodeE {w : Word} (ho : opOf w = 0xE) : Decoded w (decodeE w) := by
  unfold decodeE
  split
  case h_3 h h' => exact .illegal (.inr (.inr (.inr (.inr (.inl ⟨ho, by simpa using ⟨h, h'⟩⟩)))))
  all_goals exact .ok _ (encXNN_of_keys ho ‹_›)

theorem decoded_decodeF {w : Word} (ho : opOf w = 0xF) : Decoded w (decodeF w) := by
  unfold decodeF
  split
  case h_10 =>
    refine .illegal (.inr (.inr (.inr (.inr (.inr ⟨ho, ?_⟩)))))
    simp only [imp_false, List.mem_cons, List.not_mem_nil, or_false] at *
    omega
  all_goals exact .ok _ (encXNN_of_keys ho ‹_›)

/-- Every answer of the decoder is right for its word. -/
theorem decoded_decode (w : Word) : Decoded w (decode w) := by
  unfold decode
  split
  case h_1 ho => exact decoded_decode0 ho
  case h_9 ho => exact decoded_decode8 ho
  case h_15 ho => exact decoded_decodeE ho
  case h_16 =>
    have : opOf w < 16 := (w.extractLsb' 12 4).isLt
    simp only [imp_false] at *
    exact decoded_decodeF (by omega)
  case h_6 ho =>
    split
    case isTrue hn => exact .ok _ (encXYN_of_keys ho (congrArg Fin.val hn))
    case isFalse hn => exact .illegal (.inr (.inl ⟨ho, hn⟩))
  case h_10 ho =>
    split
    case isTrue hn => exact .ok _ (encXYN_of_keys ho (congrArg Fin.val hn))
    case isFalse hn => exact .illegal (.inr (.inr (.inr (.inl ⟨ho, hn⟩))))
  case h_2 ho | h_3 ho | h_11 ho | h_12 ho => exact .ok _ (encNNN_of_op ho)
  case h_14 ho => exact .ok _ (encXYN_of_op ho)
  all_goals exact .ok _ (encXNN_of_op ‹_›)

/-- Settles O2, by what the decoder can answer. -/
theorem encodeOfDecodeIsTheWord : Obligations.EncodeOfDecodeIsTheWord := by
  intro w i h
  rcases decoded_decode w with ⟨j, hj, hw⟩ | ⟨he, _⟩
  · cases h.symm.trans hj
    exact hw
  · cases h.symm.trans he

/-- No instruction is written as an illegal word. -/
theorem not_illegalWord_encode (i : Instr) : ¬ IllegalWord (encode i) := by
  cases i
  case cls | ret => unfold IllegalWord; decide
  all_goals simp [IllegalWord, encode]

/-- Settles O4: a word that decodes is an instruction's, and so not an illegal one. -/
theorem illegalWordsAreTheListed : Obligations.IllegalWordsAreTheListed := by
  intro w
  show _ ↔ IllegalWord w
  rcases decoded_decode w with ⟨i, hi, rfl⟩ | ⟨he, hw⟩
  · simp [hi, not_illegalWord_encode i]
  · exact iff_of_true he hw

/-! ### The opcode table -/

/-- The mask of a row keeps the fields by which the decoder tells the words of the row's family apart (R75). -/
def OpRow.KeepsKeys (r : OpRow) : Prop :=
  r.mask.extractLsb' 12 4 = 0xF ∧
  (opOf r.pattern = 0x0 → r.mask = BitVec.allOnes 16) ∧
  (opOf r.pattern = 0x5 ∨ opOf r.pattern = 0x8 ∨ opOf r.pattern = 0x9 → r.mask.extractLsb' 0 4 = 0xF) ∧
  (opOf r.pattern = 0xE ∨ opOf r.pattern = 0xF → r.mask.extractLsb' 0 8 = 0xFF)

theorem keepsKeys_of_mem : ∀ r ∈ opcodeTable, r.KeepsKeys := by
  unfold OpRow.KeepsKeys
  decide

theorem not_illegalWord_pattern : ∀ r ∈ opcodeTable, ¬ IllegalWord r.pattern := by
  unfold IllegalWord
  decide

theorem OpRow.covers_iff {r : OpRow} {w : Word} : r.covers w = true ↔ w &&& r.mask = r.pattern := by
  simp [OpRow.covers]

theorem wordLegal_iff {w : Word} : wordLegal w = true ↔ ∃ r ∈ opcodeTable, r.covers w = true := by
  simp [wordLegal]

open Laws.EncodesOnItsRow in
/-- The word of an instruction stands on the instruction's own row: one mask for each format. -/
theorem encode_wellFormedAs (i : Instr) : i.wellFormedAs (encode i) = true := by
  cases i
  case cls | ret => exact of_masked (by rfl) (by rfl)
  case jp | call | ldI | jpV0 => exact of_masked (by rfl) (nnn_masked _ _)
  case seImm | sneImm | ldImm | addImm | rnd => exact of_masked (by rfl) (xnn_masked _ _ _)
  case drw => exact of_masked (by rfl) (xyn_masked _ _ _ _)
  case skp | sknp | ldVxDt | waitKey | ldDtVx | ldStVx | addI | ldFont | bcd | storeRegs | loadRegs =>
    exact of_masked (by rfl) (xll_masked _ _ _)
  all_goals exact of_masked (by rfl) (xyl_masked _ _ _ _)

/-- A word on a row has the keys of the row's pattern, so it is illegal only where the pattern is. -/
theorem illegalWord_pattern {r : OpRow} {w : Word} (hk : r.KeepsKeys) (hc : r.covers w = true) (h : IllegalWord w) :
    IllegalWord r.pattern := by
  obtain ⟨hop, h0, hn, hnn⟩ := hk
  rw [OpRow.covers_iff] at hc
  unfold IllegalWord at h ⊢
  rw [opOf_of_mask hc hop] at h
  refine h.imp ?_ (.imp ?_ (.imp ?_ (.imp ?_ (.imp ?_ ?_)))) <;> rintro ⟨e, h⟩ <;> refine ⟨e, ?_⟩
  · rw [h0 e, BitVec.and_allOnes] at hc
    exact hc ▸ h
  · exact nOf_of_mask hc (hn (.inl e)) ▸ h
  · exact nOf_of_mask hc (hn (.inr (.inl e))) ▸ h
  · exact nOf_of_mask hc (hn (.inr (.inr e))) ▸ h
  · exact nnOf_of_mask hc (hnn (.inl e)) ▸ h
  · exact nnOf_of_mask hc (hnn (.inr e)) ▸ h

/-- Two rows that cover one word agree under both masks. -/
theorem masked_patterns_eq {r r' : OpRow} {w : Word} (h : r.covers w = true) (h' : r'.covers w = true) :
    r.pattern &&& r'.mask = r'.pattern &&& r.mask := by
  rw [OpRow.covers_iff] at h h'
  rw [← h, ← h', BitVec.and_assoc, BitVec.and_assoc, BitVec.and_comm r.mask]

/-- No two rows of the table agree under both masks. -/
theorem rows_disjoint : ∀ r ∈ opcodeTable, ∀ r' ∈ opcodeTable,
    r.pattern &&& r'.mask = r'.pattern &&& r.mask → r = r' := by decide

theorem row_of_decode {w : Word} {i : Instr} (h : decode w = .ok i) :
    i.row ∈ opcodeTable ∧ i.row.covers w = true := by
  have hw := encode_wellFormedAs i
  rw [encodeOfDecodeIsTheWord w i h] at hw
  simpa [Instr.wellFormedAs] using hw

/-- Settles O3: a legal word by the keys of its row, an illegal one by the row of what it would decode to. -/
theorem decodeSelectsTheUniqueRow : Obligations.DecodeSelectsTheUniqueRow := by
  refine ⟨fun w i => row_of_decode, fun w hl => ?_, fun w hl => ?_, fun w r r' hr hr' hc hc' => ?_⟩
  · obtain ⟨r, hr, hc⟩ := wordLegal_iff.mp hl
    rcases decoded_decode w with ⟨i, hi, _⟩ | ⟨_, h⟩
    · exact ⟨i, hi⟩
    · exact absurd (illegalWord_pattern (keepsKeys_of_mem r hr) hc h) (not_illegalWord_pattern r hr)
  · rcases decoded_decode w with ⟨i, hi, _⟩ | ⟨he, _⟩
    · obtain ⟨hr, hc⟩ := row_of_decode hi
      exact absurd (wordLegal_iff.mpr ⟨_, hr, hc⟩) (by simp [hl])
    · exact he
  · exact rows_disjoint r hr r' hr' (masked_patterns_eq hc hc')

end Sys2Proof

/-! PROOF. The step: the fetched word, a word placed at PC, and that no instruction and no step is refused. -/

namespace Sys2Proof.Machine

/-! ### Fetched words -/

theorem toNat_wordOfBytes (hi lo : Byte) : (wordOfBytes hi lo).toNat = hi.toNat * 256 + lo.toNat := by
  rw [wordOfBytes, BitVec.toNat_append, ← Nat.shiftLeft_add_eq_or_of_lt lo.isLt, Nat.shiftLeft_eq]

/-- The word at PC from its two bytes. -/
theorem wordAt_of_read {s : State} {hi lo : Byte} {w : Word} (hh : s.mem.read s.pc.toNat = some hi)
    (hl : s.mem.read (s.pc.toNat + 1) = some lo) (hw : w.toNat = hi.toNat * 256 + lo.toNat) :
    s.pc.toNat < 4095 ∧ wordAt s = w := by
  have hlt : s.pc.toNat + 1 < 4096 := by
    by_contra h
    rw [Memory.read_ge (by omega)] at hl
    cases hl
  rw [Memory.read_lt (by omega), Option.some.injEq] at hh hl
  refine ⟨by omega, BitVec.eq_of_toNat_eq ?_⟩
  rw [wordAt, hh, hl, toNat_wordOfBytes, hw]

/-- Settles O6: the two bytes are the word at PC. -/
theorem stepRunsTheDecodedInstruction : Obligations.StepRunsTheDecodedInstruction := by
  intro s hi lo w i hh hl hw hd
  obtain ⟨hlt, rfl⟩ := wordAt_of_read hh hl hw
  exact step_eq_exec (nextInstr_eq_some.mpr ⟨hlt, hd⟩)

theorem step_of_decode_error {s : State} {e : DecodeError} (hp : s.pc.toNat < 4095)
    (hd : decode (wordAt s) = .error e) : step s = .fault (.invalidOpcode (wordAt s) (s.setPc (s.pc + 2))) := by
  rcases step_cases s with ⟨h, _⟩ | ⟨_, _, _, hs⟩ | ⟨_, _, hi, _⟩
  · omega
  · exact hs
  · cases hi.symm.trans hd

/-- Settles O7: in the other two cases of a step both bytes exist. -/
theorem fetchOutsideMemoryFaults : Obligations.FetchOutsideMemoryFaults := by
  intro s h
  rcases step_cases s with ⟨_, hs⟩ | ⟨hlt, _⟩ | ⟨hlt, _⟩
  · exact hs
  · omega
  · omega

/-- Settles O5, by evaluation of the decoder on each word. -/
theorem sampleWordsDecode : Obligations.SampleWordsDecode := by
  unfold Obligations.SampleWordsDecode
  decide

/-! ### A word placed at PC -/

/-- The word stored at PC is the word at PC. -/
theorem wordAt_placeWord {s : State} (w : Word) (hm : s.mem.wf = true) (hp : s.pc.toNat < 4095) :
    wordAt (s.placeWord s.pc.toNat w) = w := by
  have hhi : ((s.mem.put s.pc.toNat (highByte w)).put (s.pc.toNat + 1) (lowByte w)).byteAt s.pc.toNat = highByte w := by
    rw [Memory.byteAt_put_ne _ _ (by omega), Memory.byteAt_put_same _ _ hm]
  have hlo := Memory.byteAt_put_same (s.pc.toNat + 1) (lowByte w)
    (Memory.put_wf (a := s.pc.toNat) (highByte w) hm (by omega))
  exact (congrArg₂ wordOfBytes hhi hlo).trans (wordOfBytes_high_low w)

theorem step_placeWord {s : State} (i : Instr) (hm : s.mem.wf = true) (hp : s.pc.toNat < 4095) :
    step (s.placeWord s.pc.toNat (encode i)) = exec i ((s.placeWord s.pc.toNat (encode i)).setPc (s.pc + 2)) :=
  step_eq_exec (nextInstr_eq_some.mpr ⟨hp, by rw [wordAt_placeWord _ hm hp, decode_encode]⟩)

theorem withFetchWord_lt {s : State} (w : Word) (h : s.pc.toNat < 4095) :
    s.withFetchWord 16 w.toNat = s.placeWord s.pc.toNat w := by
  rw [State.withFetchWord, if_pos (show s.pc.toNat + 1 < 4096 by omega), tableWord_16, BitVec.ofNat_toNat,
    BitVec.setWidth_eq]

theorem withFetchWord_ge {s : State} (w : Word) (h : 4095 ≤ s.pc.toNat) :
    s.withFetchWord 16 w.toNat = (s.setPc 0x0200).placeWord (s.setPc 0x0200).pc.toNat w := by
  rw [State.withFetchWord, if_neg (show ¬ s.pc.toNat + 1 < 4096 by omega), tableWord_16, BitVec.ofNat_toNat,
    BitVec.setWidth_eq]
  rfl

/-- Placing a word and moving PC changes PC and memory only. -/
theorem sameOutside_placed (s : State) (a : Nat) (w pc pc' : Word) :
    sameOutside [.pc, .mem] s (((s.setPc pc).placeWord a w).setPc pc') := by
  simp [sameOutside_iff, Part.same, State.placeWord]

/-- Settles O9, on either side of the last PC a word can be fetched from. -/
theorem placedWordRuns : Obligations.PlacedWordRuns := by
  intro s i hm
  by_cases h : s.pc.toNat < 4095
  · rw [withFetchWord_lt _ h]
    exact ⟨_, step_placeWord i hm h, sameOutside_placed s _ _ s.pc _, fun _ => rfl, fun h' => by omega⟩
  · rw [withFetchWord_ge _ (by omega)]
    exact ⟨_, step_placeWord (s := s.setPc 0x0200) i hm (by simp), sameOutside_placed s _ _ _ _,
      fun h' => absurd h' h, fun _ => rfl⟩

/-! ### Nothing is refused -/

/-- Each operation that can fault answers a next state or a fault. -/
theorem exec_ne_refused (i : Instr) (s : State) (q : Refusal) : exec i s ≠ .refused q := by
  intro h
  cases i <;> simp only [exec] at h
  case ret =>
    rcases pop_cases s (fun a s' => .next (s'.setPc a)) with h' | ⟨_, h'⟩ <;>
      simp only [execRet, h'] at h <;> cases h
  case call | drw | skp | sknp | waitKey =>
    simp only [execCall, push, execDrw, execSkp, execSknp, isPressed, skipIf_eq, execWaitKey] at h
    split at h <;> cases h
  case bcd x =>
    rcases memWriteAll_cases s (dataAddr s 0) (bcdDigits (s.getV x)) with ⟨m, h', _⟩ | ⟨e, m, h', _⟩ <;>
      simp only [execBcd, h'] at h <;> cases h
  case storeRegs x =>
    rcases memWriteAll_cases s (dataAddr s 0) (valuesUpTo x s) with ⟨m, h', _⟩ | ⟨e, m, h', _⟩ <;>
      simp only [execStoreRegs, h'] at h <;> cases h
  case loadRegs x =>
    rcases loadRegsFrom_cases (dataAddr s 0) (regsUpTo x) s with ⟨v, h'⟩ | ⟨e, v, h'⟩ <;>
      simp only [execLoadRegs, h'] at h <;> cases h
  all_goals cases h

/-- Settles O10: the fetch and the decoder answer a fault, an instruction by `exec_ne_refused`. -/
theorem nothingIsRefused : Obligations.NothingIsRefused := by
  refine ⟨exec_ne_refused, fun s q h => ?_⟩
  rcases step_cases s with ⟨_, hs⟩ | ⟨_, _, _, hs⟩ | ⟨_, i, _, hs⟩ <;> rw [hs] at h
  · cases h
  · cases h
  · exact exec_ne_refused i _ q h

end Sys2Proof.Machine

/-! PROOF. The random input influences nothing but `CXNN`: every other operation commutes with a change of it. -/

namespace Sys2Proof.Machine

theorem memWriteAll_setRnd (a : Nat) (bs : List Byte) (s : State) (l : List Byte) (n : Nat) :
    memWriteAll a bs (s.setRnd l n) = mapState (State.setRnd · l n) (memWriteAll a bs s) := by
  by_cases h : bs = [] ∨ a + bs.length ≤ 4096
  · rw [memWriteAll_ok _ h, memWriteAll_ok _ h]
    rfl
  · obtain ⟨hb, hl⟩ := not_or.mp h
    rw [memWriteAll_fault _ hb (by omega), memWriteAll_fault _ hb (by omega)]
    rfl

theorem loadRegsFrom_setRnd (a : Nat) (rs : List Reg) (s : State) (l : List Byte) (n : Nat) :
    loadRegsFrom a rs (s.setRnd l n) = mapState (State.setRnd · l n) (loadRegsFrom a rs s) := by
  induction rs generalizing s with
  | nil => rfl
  | cons r rs ih =>
    by_cases h : a + r.val < 4096
    · rw [loadRegsFrom, loadRegsFrom, memRead_lt _ _ h, memRead_lt _ _ h]
      exact ih (s.setV r _)
    · rw [loadRegsFrom, loadRegsFrom, memRead_ge _ _ (by omega), memRead_ge _ _ (by omega)]
      rfl

/-- Every instruction but `CXNN` commutes with a change of the random input. -/
theorem exec_setRnd {i : Instr} (hi : ∀ x nn, i ≠ .rnd x nn) (s : State) (l : List Byte) (n : Nat) :
    exec i (s.setRnd l n) = mapState (State.setRnd · l n) (exec i s) := by
  cases i
  case rnd x nn => exact absurd rfl (hi x nn)
  case ret | skp | sknp =>
    simp only [exec, execRet, pop, execSkp, execSknp, isPressed, skipIf_eq]
    rw [apply_dite (mapState _)]
    rfl
  case call =>
    simp only [exec, execCall, push]
    rw [← andThen_mapState fun _ => rfl, apply_dite (mapState _)]
    rfl
  case seImm | sneImm | seReg | sneReg =>
    simp only [exec, execSeImm, execSneImm, execSeReg, execSneReg, skipIf_eq]
    rfl
  case waitKey x =>
    simp only [exec, execWaitKey, show leastPressed (s.setRnd l n) = leastPressed s from rfl]
    cases leastPressed s <;> rfl
  case drw x y k =>
    cases hr : readBytes s.mem (dataAddr s 0) k.val with
    | error a => rw [exec_drw_error hr, exec_drw_error (s := s.setRnd l n) hr]; rfl
    | ok sprite => rw [exec_drw_ok hr, exec_drw_ok (s := s.setRnd l n) hr]; rfl
  case bcd x => exact memWriteAll_setRnd _ _ s l n
  case storeRegs x =>
    simp only [exec, execStoreRegs]
    rw [← andThen_mapState fun _ => rfl, ← memWriteAll_setRnd]
    rfl
  case loadRegs x =>
    simp only [exec, execLoadRegs]
    rw [← andThen_mapState fun _ => rfl, ← loadRegsFrom_setRnd]
    rfl
  all_goals rfl

/-- The step does not read the random input where its instruction is no `CXNN`. -/
theorem step_setRnd {s : State} (h : ∀ x nn, nextInstr s ≠ some (.rnd x nn)) (l : List Byte) (n : Nat) :
    step (s.setRnd l n) = mapState (State.setRnd · l n) (step s) := by
  rcases step_cases s with ⟨hp, hs⟩ | ⟨hp, e, hd, hs⟩ | ⟨hp, i, hd, hs⟩ <;> rw [hs]
  · exact fetchOutsideMemoryFaults (s.setRnd l n) hp
  · exact step_of_decode_error (s := s.setRnd l n) hp hd
  · have hn : nextInstr s = some i := nextInstr_eq_some.mpr ⟨hp, hd⟩
    rw [step_eq_exec (s := s.setRnd l n) ((nextInstr_congr rfl rfl).trans hn)]
    exact exec_setRnd (fun x nn hi => h x nn (hi ▸ hn)) (s.setPc (s.pc + 2)) l n

/-- The random byte takes no part in `step(rnd)` where the next instruction is no `CXNN`. -/
theorem stepWith_eq {s : State} (h : ∀ x nn, nextInstr s ≠ some (.rnd x nn)) (r : Byte) :
    stepWith r s =
      let p := settle (if waiting s then .waiting else .completed) s (step s)
      (p.1.setRnd s.rndIn s.draws, p.2) := by
  rw [stepWith, step_setRnd h]
  cases step s with
  | next t => rfl
  | fault f => simp [settle]
  | refused q => rfl

/-- Settles O21, by `stepWith_eq` for the two bytes. -/
theorem onlyRndReadsTheRandomInput : Obligations.OnlyRndReadsTheRandomInput := by
  intro s r r' h
  rw [stepWith_eq h, stepWith_eq h]

end Sys2Proof.Machine

/-! PROOF. Family 0x0: the clear of the display and the return from a subroutine. -/

namespace Sys2Proof.Machine

/-! ### The words of the family -/

/-- Format `FIXED`: the only word on the row of an instruction without operands is the instruction's own. -/
theorem onRow_fixed (i : Instr) : OnRow 0xFFFF (encode i) fun _ => i := by
  intro w hw
  have hself : w &&& 0xFFFF = w := BitVec.and_allOnes
  rw [← hself, hw, decode_encode]

/-! ### 00E0 -/

theorem sameOutside_setFb (s : State) (d : Display) : sameOutside [.fb] s (s.setFb d) := by
  simp [sameOutside_iff, Part.same]

/-- Settles O27: `CLS` puts the blank display in place. -/
theorem clearTurnsEveryPixelOff : Obligations.ClearTurnsEveryPixelOff :=
  ⟨onRow_fixed .cls, fun s => ⟨s.setFb Display.blank, rfl, Display.pixel_blank, sameOutside_setFb s _⟩⟩

/-! ### 00EE -/

/-- R91 with an entry on the stack: PC is the entry below SP, and the entry is not cleared (D35). -/
theorem exec_ret_pos {s : State} {k : Fin 16} (hk : s.sp.toNat = k.val + 1) :
    exec .ret s = .next ((s.setStack (s.sp - 1) s.stk).setPc s.stk[k]) := by
  have hentry : s.sp.toNat - 1 = k.val := by omega
  simp only [exec, execRet, pop_pos s _ (by omega) (by omega), hentry, Fin.getElem_fin]

/-- R173: the return from an empty stack. -/
theorem exec_ret_zero {s : State} (h : s.sp.toNat = 0) : exec .ret s = .fault (.stackUnderflow s) := by
  have hsp : s.sp = 0 := BitVec.eq_of_toNat_eq h
  simp only [exec, execRet, pop_zero s _ hsp]

theorem sameOutside_pop (s : State) (p : Byte) (w : Word) :
    sameOutside [.pc, .sp] s ((s.setStack p s.stk).setPc w) := by
  simp [sameOutside_iff, Part.same]

/-- Settles O28: an entry on the stack by `exec_ret_pos`, none by `exec_ret_zero`. -/
theorem returnPopsThePc : Obligations.ReturnPopsThePc := by
  refine ⟨onRow_fixed .ret, fun s k hk => ?_, fun s => exec_ret_zero⟩
  have hsp : (s.sp - 1).toNat = k.val := by
    rw [sp_pred_toNat (by omega), hk, Nat.add_sub_cancel]
  exact ⟨_, exec_ret_pos hk, rfl, hsp, sameOutside_pop s _ _⟩

end Sys2Proof.Machine

/-! PROOF. Families 0x1 and 0x2: the jump, the call, and the return that undoes a call. -/

namespace Sys2Proof.Machine

/-! ### The words of the families -/

/-- Format `NNN`: a word whose top nibble is an instruction's is that instruction's word with its own low 12 bits. -/
theorem onRow_nnn {f : Addr12 → Instr} {op : BitVec 4} {pattern : Word} (he : ∀ a, encode (f a) = encNNN op a)
    (hop : opOf pattern = op.toNat) : OnRow 0xF000 pattern fun w => f (nnnOf w) := by
  intro w hw
  have hw' : encode (f (nnnOf w)) = w := by
    rw [he, encNNN_of_op ((opOf_of_mask hw rfl).trans hop)]
  calc decode w = decode (encode (f (nnnOf w))) := by rw [hw']
    _ = .ok (f (nnnOf w)) := decode_encode _

/-! ### 1NNN -/

theorem sameOutside_setPc (s : State) (w : Word) : sameOutside [.pc] s (s.setPc w) := by
  simp [sameOutside_iff, Part.same]

/-- Settles O29: `JP` puts its operand, zero-extended, in PC. -/
theorem jumpSetsThePc : Obligations.JumpSetsThePc :=
  ⟨onRow_nnn (fun _ => rfl) rfl, fun nnn s =>
    ⟨s.setPc (zext16 nnn), rfl, toNat_zext16 nnn (by omega), sameOutside_setPc s _⟩⟩

/-! ### 2NNN -/

theorem sp_succ_toNat {b : Byte} (h : b.toNat < 255) : (b + 1).toNat = b.toNat + 1 :=
  BitVec.toNat_add_of_lt (y := 1) (by show b.toNat + 1 < 2 ^ 8; omega)

/-- R96 with room on the stack: PC goes to the entry at SP, and the operand to PC. -/
theorem exec_call_lt (nnn : Addr12) {s : State} {k : Fin 16} (hk : s.sp.toNat = k.val) :
    exec (.call nnn) s = .next ((s.setStack (s.sp + 1) (s.stk.set k s.pc)).setPc (zext16 nnn)) := by
  simp only [exec, execCall, push_lt s.pc s (by omega), andThen_next, hk]

/-- R172: the call on a full stack. -/
theorem exec_call_full (nnn : Addr12) {s : State} (h : s.sp.toNat = 16) :
    exec (.call nnn) s = .fault (.stackOverflow s.pc s) := by
  simp only [exec, execCall, push_ge s.pc s (by omega), andThen_fault]

theorem sameOutside_push (s : State) (p : Byte) (stk : Vector Word 16) (w : Word) :
    sameOutside [.pc, .sp, .stk] s ((s.setStack p stk).setPc w) := by
  simp [sameOutside_iff, Part.same]

/-- Settles O30: room on the stack by `exec_call_lt`, none by `exec_call_full`. -/
theorem callPushesTheReturnAddress : Obligations.CallPushesTheReturnAddress := by
  refine ⟨onRow_nnn (fun _ => rfl) rfl, fun nnn s k hk => ?_, fun nnn s => exec_call_full nnn⟩
  have hpushed : (s.stk.set k s.pc)[k] = s.pc := Vector.getElem_set_self k.isLt
  have hothers : ∀ j : Fin 16, j ≠ k → (s.stk.set k s.pc)[j] = s.stk[j] := fun j hj =>
    Vector.getElem_set_ne k.isLt j.isLt (Fin.val_ne_of_ne hj.symm)
  have hsp : (s.sp + 1).toNat = k.val + 1 := by rw [sp_succ_toNat (by omega), hk]
  exact ⟨_, exec_call_lt nnn hk, hpushed, hothers, hsp, toNat_zext16 nnn (by omega), sameOutside_push s _ _ _⟩

/-! ### The return after a call -/

/-- Settles O31: the entry that the call pushed (`callPushesTheReturnAddress`) is the one below the SP it left, which is
the entry that the return pops (`returnPopsThePc`). -/
theorem returnUndoesTheCall : Obligations.ReturnUndoesTheCall := by
  intro nnn s hlt
  obtain ⟨k, hk⟩ : ∃ k : Fin 16, s.sp.toNat = k.val := ⟨⟨_, hlt⟩, rfl⟩
  obtain ⟨-, hcall, -⟩ := callPushesTheReturnAddress
  obtain ⟨-, hret, -⟩ := returnPopsThePc
  obtain ⟨t, ht, hpushed, hothers, hsp, -, -⟩ := hcall nnn s k hk
  refine ⟨t, ht, fun t' hsp' hstk => ?_⟩
  obtain ⟨u, hu, hpc, husp, hframe⟩ := hret t' k (by rw [hsp', hsp])
  have hustk : ∀ j : Fin 16, u.stk[j] = t'.stk[j] := hframe .stk (by decide)
  refine ⟨u, hu, ?_, BitVec.eq_of_toNat_eq (husp.trans hk.symm), fun j hj => ?_, hframe⟩
  · rw [hpc, hstk k, hpushed]
  · have hne : j ≠ k := Fin.ne_of_lt (hj.trans_eq hk)
    rw [hustk j, hstk j, hothers j hne]

end Sys2Proof.Machine

/-! PROOF. Families 0x3, 0x4, 0x5 and 0x9: the skips on an immediate and on a register. -/

namespace Sys2Proof.Machine

/-! ### The words of the families -/

theorem decode_of_encode_eq {w : Word} {i : Instr} (h : encode i = w) : decode w = .ok i := h ▸ decode_encode i

/-- Format `XNN`: a word whose top nibble is an instruction's is that instruction's word with its own `x` and `nn`. -/
theorem onRow_xnn {f : Reg → Byte → Instr} {op : BitVec 4} {pattern : Word}
    (he : ∀ x nn, encode (f x nn) = encXNN op x nn) (hop : opOf pattern = op.toNat) :
    OnRow 0xF000 pattern fun w => f (xOf w) (nnOf w) := by
  intro w hw
  have hw' : encXNN op (xOf w) (nnOf w) = w := encXNN_of_op ((opOf_of_mask hw rfl).trans hop)
  exact decode_of_encode_eq ((he _ _).trans hw')

/-- Format `XYL`: a word whose top and low nibbles are an instruction's is that instruction's word with its own `x` and
`y`. -/
theorem onRow_xyl {f : Reg → Reg → Instr} {op n : BitVec 4} {pattern : Word}
    (he : ∀ x y, encode (f x y) = encXYN op x y n) (hop : opOf pattern = op.toNat)
    (hn : (nOf pattern).val = n.toNat) : OnRow 0xF00F pattern fun w => f (xOf w) (yOf w) := by
  intro w hw
  have hop' : opOf w = op.toNat := (opOf_of_mask hw rfl).trans hop
  have hn' : (nOf w).val = n.toNat := (congrArg Fin.val (nOf_of_mask hw rfl)).trans hn
  exact decode_of_encode_eq ((he _ _).trans (encXYN_of_keys hop' hn'))

/-! ### The skip on two values -/

/-- R100, R102: a skip where two values are equal. -/
theorem skipIf_beq_next (a b : Byte) (s : State) :
    ∃ t, skipIf (a == b) s = .next t ∧ t.pc = (if a = b then s.pc + 2 else s.pc) ∧ sameOutside [.pc] s t := by
  refine ⟨_, skipIf_eq _ s, ?_, sameOutside_setPc s _⟩
  by_cases h : a = b <;> simp [h]

/-- R101, R103: a skip where two values differ. -/
theorem skipIf_bne_next (a b : Byte) (s : State) :
    ∃ t, skipIf (a != b) s = .next t ∧ t.pc = (if a = b then s.pc else s.pc + 2) ∧ sameOutside [.pc] s t := by
  refine ⟨_, skipIf_eq _ s, ?_, sameOutside_setPc s _⟩
  by_cases h : a = b <;> simp [h]

/-! ### 3XNN and 4XNN -/

/-- Settles O32: the two skips compare Vx with the immediate. -/
theorem skipsOnImmediates : Obligations.SkipsOnImmediates :=
  ⟨onRow_xnn (fun _ _ => rfl) rfl, onRow_xnn (fun _ _ => rfl) rfl, fun x nn s =>
    ⟨skipIf_beq_next (s.getV x) nn s, skipIf_bne_next (s.getV x) nn s⟩⟩

/-! ### 5XY0 and 9XY0 -/

/-- Settles O33: the two skips compare Vx with Vy; the key in the low nibble is 0. -/
theorem skipsOnRegisters : Obligations.SkipsOnRegisters :=
  ⟨onRow_xyl (fun _ _ => rfl) rfl rfl, onRow_xyl (fun _ _ => rfl) rfl rfl, fun x y s =>
    ⟨skipIf_beq_next (s.getV x) (s.getV y) s, skipIf_bne_next (s.getV x) (s.getV y) s⟩⟩

end Sys2Proof.Machine

/-! PROOF. Families 0x6 and 0x7: the load of an immediate and the addition of one. -/

namespace Sys2Proof.Machine

/-! ### The write of one register -/

theorem sameOutside_setV (s : State) (x : Reg) (b : Byte) : sameOutside [.v] s (s.setV x b) := by
  simp [sameOutside_iff, Part.same]

/-! ### 6XNN -/

/-- Settles O34: `LD` writes the immediate to Vx. -/
theorem loadImmediateSetsVx : Obligations.LoadImmediateSetsVx :=
  ⟨onRow_xnn (fun _ _ => rfl) rfl, fun x nn s =>
    ⟨s.setV x nn, rfl, State.getV_setV_same s x nn, regsOutside_setV x nn s, sameOutside_setV s x nn⟩⟩

/-! ### 7XNN -/

/-- R106: the byte written to Vx is the exact sum of the two bytes, cut to 8 bits. -/
theorem exec_addImm (x : Reg) (nn : Byte) (s : State) :
    exec (.addImm x nn) s = .next (s.setV x (BitVec.ofNat 8 ((s.getV x).toNat + nn.toNat))) := rfl

/-- Settles O35: `ADD` cuts the sum to a byte, which is modulo 256, and writes it to Vx and to no other register. -/
theorem addImmediateWrapsWithoutCarry : Obligations.AddImmediateWrapsWithoutCarry := by
  refine ⟨onRow_xnn (fun _ _ => rfl) rfl, fun x nn s =>
    ⟨_, exec_addImm x nn s, ?_, regsOutside_setV x _ s, sameOutside_setV s x _⟩⟩
  rw [State.getV_setV_same, BitVec.toNat_ofNat]

end Sys2Proof.Machine

/-! PROOF. Family 0x8: the operations on two registers, and the flag that five of them write last. -/

namespace Sys2Proof.Machine

/-! ### 8XY0 -/

/-- Settles O36: `LD` writes the value of Vy to Vx and to no other register. -/
theorem assignCopiesVy : Obligations.AssignCopiesVy :=
  ⟨onRow_xyl (fun _ _ => rfl) rfl rfl, fun x y s =>
    ⟨s.setV x (s.getV y), rfl, State.getV_setV_same s x _, regsOutside_setV x _ s, sameOutside_setV s x _⟩⟩

/-! ### 8XY1, 8XY2 and 8XY3 -/

/-- R111 to R113: an instruction that writes one register, with the bits of the value it writes. -/
theorem exec_setV_bits {i : Instr} {x : Reg} {s : State} {v : Byte} {bit : Nat → Bool}
    (he : exec i s = .next (s.setV x v)) (hv : ∀ b, v.getLsbD b = bit b) :
    ∃ t, exec i s = .next t ∧ (∀ b, (t.getV x).getLsbD b = bit b) ∧ regsOutside [x] s t ∧ sameOutside [.v] s t := by
  refine ⟨_, he, fun b => ?_, regsOutside_setV x v s, sameOutside_setV s x v⟩
  rw [State.getV_setV_same, hv]

/-- Settles O37: the three operations work bit by bit, and write Vx alone (`exec_setV_bits`). -/
theorem logicOperationsLeaveVf : Obligations.LogicOperationsLeaveVf :=
  ⟨onRow_xyl (fun _ _ => rfl) rfl rfl, onRow_xyl (fun _ _ => rfl) rfl rfl, onRow_xyl (fun _ _ => rfl) rfl rfl,
    fun _ _ _ => ⟨exec_setV_bits rfl fun _ => BitVec.getLsbD_or, exec_setV_bits rfl fun _ => BitVec.getLsbD_and,
      exec_setV_bits rfl fun _ => BitVec.getLsbD_xor⟩⟩

/-! ### The result and then the flag -/

theorem sameOutside_writeThenFlag (x : Reg) (a f : Byte) (s : State) : sameOutside [.v] s (writeThenFlag x a f s) := by
  simp [sameOutside_iff, Part.same]

/-- R119 (b): an instruction that writes a result and then the flag leaves the flag in VF, also where Vx is VF, the
result in any other Vx, and nothing else changed. -/
theorem exec_writeThenFlag {i : Instr} {x : Reg} {s : State} {a f : Byte}
    (he : exec i s = .next (writeThenFlag x a f s)) :
    ∃ t, exec i s = .next t ∧ t.getV VF = f ∧ (x ≠ VF → t.getV x = a) ∧ regsOutside [x, VF] s t ∧
      sameOutside [.v] s t := by
  refine ⟨_, he, ?_, fun hx => ?_, regsOutside_writeThenFlag x a f s, sameOutside_writeThenFlag x a f s⟩
  · rw [writeThenFlag_getV, if_pos rfl]
  · rw [writeThenFlag_getV, if_neg hx, if_pos rfl]

/-- R119 (c): the flag of a condition. -/
theorem flagByte_decide (p : Prop) [Decidable p] : flagByte (decide p) = if p then 0x01 else 0x00 := by
  simp only [flagByte, decide_eq_true_eq]

/-- R116, R118: the flag of bit `k` of a byte. -/
theorem toNat_flagByte_bit (a : Byte) (k : Nat) : (flagByte (a.getLsbD k)).toNat = a.toNat / 2 ^ k % 2 := by
  have hbit : (flagByte (a.getLsbD k)).toNat = (a.getLsbD k).toNat := by cases a.getLsbD k <;> rfl
  rw [hbit]
  exact Nat.toNat_testBit a.toNat k

/-! ### 8XY4 -/

/-- R114: the result is the exact sum of the two bytes, cut to 8 bits. -/
theorem exec_addReg (x y : Reg) (s : State) :
    exec (.addReg x y) s = .next (writeThenFlag x (BitVec.ofNat 8 ((s.getV x).toNat + (s.getV y).toNat))
      (carryFlag (s.getV x) (s.getV y)) s) := rfl

/-- Settles O38: the flag is the carry of the exact sum; a cut to 8 bits is modulo 256. -/
theorem addSetsVfToTheCarry : Obligations.AddSetsVfToTheCarry := by
  refine ⟨onRow_xyl (fun _ _ => rfl) rfl rfl, fun x y s => ?_⟩
  obtain ⟨t, ht, hflag, hres, hregs, hrest⟩ := exec_writeThenFlag (exec_addReg x y s)
  refine ⟨t, ht, hflag.trans (flagByte_decide _), fun hx => ?_, hregs, hrest⟩
  rw [hres hx, BitVec.toNat_ofNat]

/-! ### 8XY5 and 8XY7 -/

/-- The difference of two bytes is the exact difference modulo 256. -/
theorem toNat_byte_sub (a b : Byte) : ((a - b).toNat : Int) = ((a.toNat : Int) - b.toNat) % 256 := by
  have ha := a.isLt
  have hb := b.isLt
  rw [BitVec.toNat_sub]
  omega

/-- R115, R117: an instruction that writes the difference of two bytes and then NOT borrow. -/
theorem exec_sub_notBorrow {i : Instr} {x : Reg} {s : State} {a b : Byte}
    (he : exec i s = .next (writeThenFlag x (a - b) (notBorrowFlag a b) s)) :
    ∃ t, exec i s = .next t ∧ t.getV VF = (if a.toNat ≥ b.toNat then 0x01 else 0x00) ∧
      (x ≠ VF → ((t.getV x).toNat : Int) = ((a.toNat : Int) - b.toNat) % 256) ∧
      regsOutside [x, VF] s t ∧ sameOutside [.v] s t := by
  obtain ⟨t, ht, hflag, hres, hregs, hrest⟩ := exec_writeThenFlag he
  refine ⟨t, ht, hflag.trans (flagByte_decide _), fun hx => ?_, hregs, hrest⟩
  rw [hres hx, toNat_byte_sub]

/-- Settles O39: `exec_sub_notBorrow` of Vx and Vy. -/
theorem subtractSetsVfToNotBorrow : Obligations.SubtractSetsVfToNotBorrow :=
  ⟨onRow_xyl (fun _ _ => rfl) rfl rfl, fun _ _ _ => exec_sub_notBorrow rfl⟩

/-- Settles O40: `exec_sub_notBorrow` of Vy and Vx. -/
theorem reverseSubtractSetsVfToNotBorrow : Obligations.ReverseSubtractSetsVfToNotBorrow :=
  ⟨onRow_xyl (fun _ _ => rfl) rfl rfl, fun _ _ _ => exec_sub_notBorrow rfl⟩

/-! ### 8XY6 and 8XYE -/

/-- R116 at the default of the shift source (D11): `y` is not used. -/
theorem exec_shr (x y : Reg) (s : State) :
    exec (.shr x y) s = .next (writeThenFlag x (s.getV x >>> 1) (lsbFlag (s.getV x)) s) := rfl

/-- R118 at the default of the shift source (D11): `y` is not used. -/
theorem exec_shl (x y : Reg) (s : State) :
    exec (.shl x y) s = .next (writeThenFlag x (s.getV x <<< 1) (msbFlag (s.getV x)) s) := rfl

theorem toNat_lsbFlag (a : Byte) : (lsbFlag a).toNat = a.toNat % 2 := by
  rw [lsbFlag, toNat_flagByte_bit, Nat.pow_zero, Nat.div_one]

theorem toNat_msbFlag (a : Byte) : (msbFlag a).toNat = a.toNat / 128 := by
  have ha := a.isLt
  rw [msbFlag, toNat_flagByte_bit]
  omega

theorem toNat_byte_shr_one (a : Byte) : (a >>> 1).toNat = a.toNat / 2 := by
  rw [BitVec.toNat_ushiftRight, Nat.shiftRight_one]

theorem toNat_byte_shl_one (a : Byte) : (a <<< 1).toNat = a.toNat * 2 % 256 := by
  rw [BitVec.toNat_shiftLeft, Nat.shiftLeft_eq, Nat.pow_one]

/-- Settles O41: each shift is half or twice the byte, and its flag is the bit that leaves at that end. -/
theorem shiftsSetVfToTheBitShiftedOut : Obligations.ShiftsSetVfToTheBitShiftedOut := by
  refine ⟨onRow_xyl (fun _ _ => rfl) rfl rfl, onRow_xyl (fun _ _ => rfl) rfl rfl, fun x y s => ⟨?_, ?_⟩⟩
  · obtain ⟨t, ht, hflag, hres, hregs, hrest⟩ := exec_writeThenFlag (exec_shr x y s)
    refine ⟨t, ht, ?_, fun hx => ?_, hregs, hrest⟩
    · rw [hflag, toNat_lsbFlag]
    · rw [hres hx, toNat_byte_shr_one]
  · obtain ⟨t, ht, hflag, hres, hregs, hrest⟩ := exec_writeThenFlag (exec_shl x y s)
    refine ⟨t, ht, ?_, fun hx => ?_, hregs, hrest⟩
    · rw [hflag, toNat_msbFlag]
    · rw [hres hx, toNat_byte_shl_one]

end Sys2Proof.Machine

/-! PROOF. Families 0xA, 0xB and 0xC: the load of the index, the jump from V0, and the random byte. -/

namespace Sys2Proof.Machine

/-! ### ANNN -/

theorem sameOutside_setI (s : State) (w : Word) : sameOutside [.i] s (s.setI w) := by
  simp [sameOutside_iff, Part.same]

/-- Settles O42: `LD` puts its operand, zero-extended, in I. -/
theorem setIndexZeroExtends : Obligations.SetIndexZeroExtends :=
  ⟨onRow_nnn (fun _ => rfl) rfl, fun nnn s =>
    ⟨s.setI (zext16 nnn), rfl, toNat_zext16 nnn (by omega), sameOutside_setI s _⟩⟩

/-! ### BNNN -/

/-- A 12-bit address and a byte, each below its own bound, have a sum below 2 ^ 16. -/
theorem toNat_zext16_add_zext16 (a : Addr12) (b : Byte) : (zext16 a + zext16 b).toNat = a.toNat + b.toNat := by
  have ha := a.isLt
  have hb := b.isLt
  rw [BitVec.toNat_add, toNat_zext16 a (by omega), toNat_zext16 b (by omega), Nat.mod_eq_of_lt (by omega)]

/-- Settles O43: the sum of the operand and V0 fits PC, so it is exact. -/
theorem indexedJumpAddsV0 : Obligations.IndexedJumpAddsV0 :=
  ⟨onRow_nnn (fun _ => rfl) rfl, fun nnn s =>
    ⟨s.setPc (zext16 nnn + zext16 (s.getV 0)), rfl, toNat_zext16_add_zext16 nnn (s.getV 0), sameOutside_setPc s _⟩⟩

/-! ### CXNN -/

theorem sameOutside_setRnd_setV (s : State) (l : List Byte) (n : Nat) (x : Reg) (b : Byte) :
    sameOutside [.v, .rnd] s ((s.setRnd l n).setV x b) := by
  simp [sameOutside_iff, Part.same]

/-- R127: the byte `r` at the random input goes to Vx under the mask, and the random fields are left as its use leaves
them. -/
theorem exec_rnd_next {s : State} {r : Byte} {l : List Byte} {n : Nat} (hr : s.rnd = r) (hu : s.useRnd = s.setRnd l n)
    (x : Reg) (nn : Byte) :
    ∃ t, exec (.rnd x nn) s = .next t ∧ t.getV x = r &&& nn ∧ t.rndIn = l ∧ t.draws = n ∧
      regsOutside [x] s t ∧ sameOutside [.v, .rnd] s t := by
  have he : exec (.rnd x nn) s = .next ((s.setRnd l n).setV x (r &&& nn)) := by
    rw [← hr, ← hu]
    rfl
  exact ⟨_, he, State.getV_setV_same _ x _, rfl, rfl, regsOutside_setV x _ (s.setRnd l n),
    sameOutside_setRnd_setV s l n x _⟩

theorem waiting_eq_false_of_rnd {s : State} {x : Reg} {nn : Byte} (h : nextInstr s = some (.rnd x nn)) :
    waiting s = false := by
  simp only [waiting, h]

/-- R127 as a transaction: `step(r)` puts `r` under the mask in Vx, and the random fields are put back. -/
theorem stepWith_rnd {s : State} {x : Reg} {nn : Byte} (h : nextInstr s = some (.rnd x nn)) (r : Byte) :
    stepWith r s = ((s.setPc (s.pc + 2)).setV x (r &&& nn), .completed) := by
  have hstep : step (s.setRnd [r] s.draws) = exec (.rnd x nn) ((s.setRnd [r] s.draws).setPc (s.pc + 2)) :=
    step_eq_exec ((nextInstr_congr rfl rfl).trans h)
  rw [stepWith, waiting_eq_false_of_rnd h, hstep]
  rfl

theorem sameOutside_setPc_setV (s : State) (w : Word) (x : Reg) (b : Byte) :
    sameOutside [.v, .pc] s ((s.setPc w).setV x b) := by
  simp [sameOutside_iff, Part.same]

/-- Settles O44: `exec_rnd_next` with a byte supplied and with none, and `stepWith_rnd` for the transaction. -/
theorem randomByteUnderTheMask : Obligations.RandomByteUnderTheMask := by
  refine ⟨onRow_xnn (fun _ _ => rfl) rfl, fun x nn r rest s hin => ?supplied, fun x nn s hin => ?free,
    fun x nn r s hnext => ?transaction⟩
  case supplied =>
    obtain ⟨hr, hu⟩ := s.useRnd_cons hin
    exact exec_rnd_next hr hu x nn
  case free =>
    obtain ⟨hr, hu⟩ := s.useRnd_nil hin
    exact exec_rnd_next hr hu x nn
  case transaction =>
    exact ⟨_, stepWith_rnd hnext r, State.getV_setV_same _ x _, rfl, regsOutside_setV x _ (s.setPc (s.pc + 2)),
      sameOutside_setPc_setV s _ x _⟩

end Sys2Proof.Machine

/-! PROOF. Family 0xD: the sprite drawn pixel by pixel as one XOR on the display, the draw that uses it, and the draw
repeated. -/

namespace Sys2Proof.Machine

/-! ### An XOR on the display, with its collision -/

/-- What R132 does to a display and its collision result: the pixels of `C` change, no other does, and the result
becomes true where one of them was on. -/
def Xors (C : Fin 64 → Fin 32 → Prop) (p q : Display × Bool) : Prop :=
  (∀ px py, q.1.pixel px py = true ↔ ¬ (p.1.pixel px py = true ↔ C px py)) ∧
  (q.2 = true ↔ p.2 = true ∨ ∃ px py, C px py ∧ p.1.pixel px py = true)

theorem Xors.congr {C C' : Fin 64 → Fin 32 → Prop} {p q : Display × Bool} (h : Xors C p q)
    (hC : ∀ px py, C' px py ↔ C px py) : Xors C' p q := by
  obtain rfl : C' = C := funext₂ fun px py => propext (hC px py)
  exact h

theorem xors_of_empty {C : Fin 64 → Fin 32 → Prop} (hC : ∀ px py, ¬ C px py) (p : Display × Bool) : Xors C p p := by
  simp [Xors, hC]

/-- Two draws that meet in no pixel are one: the second finds its pixels as they were before the first. -/
theorem Xors.trans {C C' : Fin 64 → Fin 32 → Prop} {p q r : Display × Bool} (h : Xors C p q) (h' : Xors C' q r)
    (hd : ∀ px py, C px py → ¬ C' px py) : Xors (fun px py => C px py ∨ C' px py) p r := by
  obtain ⟨hpixel, hhit⟩ := h
  obtain ⟨hpixel', hhit'⟩ := h'
  have hsame : ∀ px py, C' px py → (q.1.pixel px py = true ↔ p.1.pixel px py = true) := by
    intro px py hc'
    have hc : ¬ C px py := fun hc => hd px py hc hc'
    rw [hpixel]
    tauto
  have hhits : (∃ px py, C' px py ∧ q.1.pixel px py = true) ↔ ∃ px py, C' px py ∧ p.1.pixel px py = true :=
    exists₂_congr fun px py => and_congr_right (hsame px py)
  refine ⟨fun px py => ?_, ?_⟩
  · have hdisj := hd px py
    rw [hpixel', hpixel]
    tauto
  · rw [hhit', hhit, hhits, or_assoc]
    simp only [or_and_right, exists_or]

/-! ### The pixels of a sprite -/

theorem drawPixel_xors (x : Fin 64) (y : Fin 32) (on : Bool) (p : Display × Bool) :
    Xors (fun px py => on = true ∧ px = x ∧ py = y) p (drawPixel x y on p) := by
  rw [drawPixel_eq]
  cases on with
  | false => exact xors_of_empty (by simp) p
  | true =>
    refine ⟨fun px py => ?_, by simp⟩
    rw [if_pos rfl, Display.pixel_toggle, Bool.xor_iff_ne, ne_eq, Bool.eq_iff_iff, decide_eq_true_iff]
    simp only [true_and]

/-- Some columns of a sprite's byte, each at most 7 to the right of the origin: no two of them meet, even wrapped. -/
theorem foldl_drawPixel_xors (ox : Nat) (y : Fin 32) (b : Byte) {l : List Nat} (hl : l.Nodup) (h8 : ∀ c ∈ l, c < 8)
    (p : Display × Bool) :
    Xors (fun px py => ∃ c ∈ l, spriteBit b c = true ∧ px = column ox c ∧ py = y) p
      (l.foldl (fun q c => drawPixel (column ox c) y (spriteBit b c) q) p) := by
  induction l generalizing p with
  | nil => exact xors_of_empty (by simp) p
  | cons c l ih =>
    obtain ⟨hc, hl⟩ := List.nodup_cons.mp hl
    refine ((drawPixel_xors (column ox c) y (spriteBit b c) p).trans
      (ih hl (fun k hk => h8 k (List.mem_cons_of_mem c hk)) _) ?_).congr fun px py => by simp
    rintro px py ⟨-, rfl, -⟩ ⟨k, hk, -, he, -⟩
    have hval : (ox + c) % 64 = (ox + k) % 64 := congrArg Fin.val he
    have hc8 := h8 c List.mem_cons_self
    have hk8 := h8 k (List.mem_cons_of_mem c hk)
    obtain rfl : c = k := by omega
    exact hc hk

theorem covers_nil (ox oy : Nat) (px : Fin 64) (py : Fin 32) : ¬ Covers ox oy [] px py := by
  rintro ⟨r, c, b, hr, -⟩
  cases hr

theorem covers_cons (ox oy : Nat) (b : Byte) (bs : List Byte) (px : Fin 64) (py : Fin 32) :
    Covers ox oy (b :: bs) px py ↔
      (∃ c ∈ List.range 8, spriteBit b c = true ∧ px = column ox c ∧ py = rowOf oy 0) ∨
        Covers ox (oy + 1) bs px py := by
  simp only [List.mem_range, Fin.ext_iff, column_val, rowOf_val]
  constructor
  · rintro ⟨r, c, d, hr, hc, hbit, hx, hy⟩
    cases r with
    | zero =>
      obtain rfl : b = d := Option.some.inj hr
      exact .inl ⟨c, hc, hbit, hx.symm, hy.symm⟩
    | succ r => exact .inr ⟨r, c, d, hr, hc, hbit, hx, by rw [← hy, Nat.add_assoc, Nat.add_comm 1]⟩
  · rintro (⟨c, hc, hbit, hx, hy⟩ | ⟨r, c, d, hr, hc, hbit, hx, hy⟩)
    · exact ⟨0, c, b, rfl, hc, hbit, hx.symm, hy.symm⟩
    · exact ⟨r + 1, c, d, hr, hc, hbit, hx, by rw [← hy, Nat.add_assoc, Nat.add_comm 1]⟩

/-- Fewer than 32 rows below a row do not wrap back to it. -/
theorem not_covers_of_lt {ox oy : Nat} {bs : List Byte} {px : Fin 64} {py : Fin 32} (hl : bs.length < 32)
    (hy : py = rowOf oy 0) : ¬ Covers ox (oy + 1) bs px py := by
  rintro ⟨r, c, b, hr, -, -, -, hrow⟩
  obtain ⟨hlt, -⟩ := List.getElem?_eq_some_iff.mp hr
  have hval : py.val = (oy + 0) % 32 := congrArg Fin.val hy
  omega

/-- The rows of a sprite of at most 32 bytes, from row number `r` on: the first one and those below it do not meet. -/
theorem drawRows_xors (ox oy : Nat) {bs : List Byte} (hl : bs.length ≤ 32) (r : Nat) (p : Display × Bool) :
    Xors (Covers ox (oy + r) bs) p (drawRows ox oy r bs p) := by
  induction bs generalizing r p with
  | nil => exact xors_of_empty (covers_nil ox _) p
  | cons b bs ih =>
    have hlt : bs.length < 32 := hl
    have hrow := foldl_drawPixel_xors ox (rowOf oy r) b (l := List.range 8) List.nodup_range
      (fun c => List.mem_range.mp) p
    refine (hrow.trans (ih hlt.le (r + 1) _) ?_).congr (covers_cons ox (oy + r) b bs)
    rintro px py ⟨c, -, -, -, hy⟩
    exact not_covers_of_lt hlt hy

theorem drawSprite_xors (ox oy : Nat) {sprite : List Byte} (hl : sprite.length ≤ 32) (d : Display) :
    Xors (Covers ox oy sprite) (d, false) (drawSprite ox oy sprite d) :=
  drawRows_xors ox oy hl 0 (d, false)

/-- Settles O45: a sprite is one XOR (`drawSprite_xors`), with no collision before its first pixel. -/
theorem drawSpriteXorsEveryPixel : Obligations.DrawSpriteXorsEveryPixel := by
  intro ox oy sprite d hl
  obtain ⟨hpixel, hhit⟩ := drawSprite_xors ox.toNat oy.toNat (hl.trans (by decide)) d
  exact ⟨hpixel, hhit.trans (by simp)⟩

/-! ### DXYN -/

/-- Format `XYN`: a word whose top nibble is an instruction's is that instruction's word with its own `x`, `y` and
`n`. -/
theorem onRow_xyn {f : Reg → Reg → Fin 16 → Instr} {op : BitVec 4} {pattern : Word}
    (he : ∀ x y n, encode (f x y n) = encXYN op x y (BitVec.ofFin n)) (hop : opOf pattern = op.toNat) :
    OnRow 0xF000 pattern fun w => f (xOf w) (yOf w) (nOf w) := by
  intro w hw
  have hw' := encXYN_of_op ((opOf_of_mask hw rfl).trans hop)
  exact decode_of_encode_eq ((he _ _ _).trans hw')

theorem flagByte_eq_zero_or_one (c : Bool) : flagByte c = 0x00 ∨ flagByte c = 0x01 := by cases c <;> decide

theorem flagByte_eq_one {c : Bool} : flagByte c = 0x01 ↔ c = true := by cases c <;> decide

theorem sameOutside_setFb_setV (s : State) (d : Display) (x : Reg) (b : Byte) :
    sameOutside [.v, .fb] s ((s.setFb d).setV x b) := by
  simp [sameOutside_iff, Part.same]

/-- R130: where all the bytes of a run exist, the read gives the byte at every address of it. -/
theorem exists_readBytes_ok {m : Memory} {a n : Nat} (h : n = 0 ∨ a + n ≤ 4096) :
    ∃ bs, readBytes m a n = .ok bs ∧ ∀ r < n, bs[r]? = m.read (a + r) := by
  refine ⟨_, readBytes_ok m h, fun r hr => ?_⟩
  rw [Memory.read_lt (by omega)]
  simp [hr]

/-- Settles O46: the bytes at I by `exists_readBytes_ok`, what they do to the display by O45. -/
theorem drawUsesTheBytesAtIndex : Obligations.DrawUsesTheBytesAtIndex := by
  refine ⟨onRow_xyn (fun _ _ _ => rfl) rfl, fun x y n s h => ?exist, fun x y n s hn h => ?missing⟩
  case exist =>
    obtain ⟨sprite, hread, hbytes⟩ := exists_readBytes_ok (m := s.mem) h
    have hlen : sprite.length = n.val := readBytes_length hread
    obtain ⟨hpixel, hhit⟩ := drawSpriteXorsEveryPixel (s.getV x) (s.getV y) sprite s.fb (by omega)
    refine ⟨_, sprite, exec_drw_ok hread, hlen, hbytes, hpixel, ?_, ?_, regsOutside_setV VF _ (s.setFb _),
      sameOutside_setFb_setV s _ VF _⟩
    · rw [State.getV_setV_same]
      exact flagByte_eq_zero_or_one _
    · rw [State.getV_setV_same]
      exact flagByte_eq_one.trans hhit
  case missing => exact exec_drw_error (readBytes_error s.mem hn h)

/-! ### The draw repeated -/

theorem exists_spriteBit_of_ne_zero {b : Byte} (h : b ≠ 0) : ∃ c < 8, spriteBit b c = true := by
  by_contra hno
  push Not at hno
  refine h (BitVec.eq_of_getLsbD_eq fun k hk => ?_)
  have hbit := hno (7 - k) (by omega)
  rw [spriteBit, show 7 - (7 - k) = k by omega] at hbit
  simpa using hbit

/-- A sprite with a byte that is not 0 has a pixel. -/
theorem exists_covers {sprite : List Byte} {r : Nat} {b : Byte} (hr : sprite[r]? = some b) (hb : b ≠ 0) (ox oy : Nat) :
    ∃ px py, Covers ox oy sprite px py := by
  obtain ⟨c, hc, hbit⟩ := exists_spriteBit_of_ne_zero hb
  exact ⟨column ox c, rowOf oy r, r, c, b, hr, hc, hbit, rfl, rfl⟩

/-- Settles O47: the first draw leaves I, the memory and the coordinates, so by O46 the second draws the same pixels. -/
theorem drawingTwiceRestoresTheDisplay : Obligations.DrawingTwiceRestoresTheDisplay := by
  intro x y n s hx hy h
  obtain ⟨-, hdraw, -⟩ := drawUsesTheBytesAtIndex
  obtain ⟨t, sprite, ht, hlen, hbytes, hpixel, hflag, hhit, hregs, hrest⟩ := hdraw x y n s h
  have hi : t.i = s.i := hrest .i (by decide)
  have hmem : ∀ a, t.mem.read a = s.mem.read a := hrest .mem (by decide)
  obtain ⟨u, sprite', hu, hlen', hbytes', hpixel', -, hhit', -, -⟩ := hdraw x y n t (hi ▸ h)
  obtain rfl : sprite' = sprite := by
    refine List.ext_getElem? fun r => ?_
    by_cases hr : r < n.val
    · rw [hbytes r hr, hbytes' r hr, hmem, dataAddr_eq, dataAddr_eq, hi]
    · rw [List.getElem?_eq_none (by omega), List.getElem?_eq_none (by omega)]
  rw [hregs x (by simpa using hx), hregs y (by simpa using hy)] at hpixel' hhit'
  refine ⟨t, u, ht, hu, fun px py => ?restored, fun hblank ⟨r, hr, b, hb, hb0⟩ => ⟨?first, ?second⟩⟩
  case restored =>
    rw [Bool.eq_iff_iff, hpixel', hpixel]
    tauto
  case first =>
    refine hflag.resolve_right fun hone => ?_
    obtain ⟨px, py, -, hon⟩ := hhit.mp hone
    exact absurd hon (by simp [hblank])
  case second =>
    obtain ⟨px, py, hc⟩ := exists_covers ((hbytes r hr).trans hb) hb0 (s.getV x).toNat (s.getV y).toNat
    refine hhit'.mpr ⟨px, py, hc, ?_⟩
    rw [hpixel]
    simp [hblank, hc]

end Sys2Proof.Machine

/-! PROOF. Family 0xE: the skips on the level of a key. -/

namespace Sys2Proof.Machine

/-! ### The words of the family -/

/-- Format `XLL`: a word whose top nibble and low byte are an instruction's is that instruction's word with its own
`x`. -/
theorem onRow_xll {f : Reg → Instr} {op : BitVec 4} {nn : Byte} {pattern : Word}
    (he : ∀ x, encode (f x) = encXNN op x nn) (hop : opOf pattern = op.toNat) (hnn : nnOf pattern = nn) :
    OnRow 0xF0FF pattern fun w => f (xOf w) := by
  intro w hw
  have hop' : opOf w = op.toNat := (opOf_of_mask hw rfl).trans hop
  have hnn' : nnOf w = nn := (nnOf_of_mask hw rfl).trans hnn
  exact decode_of_encode_eq ((he _).trans (encXNN_of_keys hop' (congrArg BitVec.toNat hnn')))

/-! ### The level of a key, and the skip on it -/

/-- R142: a byte that is the number of a key gives that key's level. -/
theorem isPressed_key {s : State} {b : Byte} {k : Fin 16} (hk : b.toNat = k.val) (f : Bool → Result) :
    isPressed s b f = f s.key[k] := by
  rw [isPressed_lt s f (hk.trans_lt k.isLt)]
  simp only [hk, Fin.getElem_fin]

/-- R140: a skip where a level is on. -/
theorem skipIf_next (p : Bool) (s : State) :
    ∃ t, skipIf p s = .next t ∧ t.pc = (if p = true then s.pc + 2 else s.pc) ∧ sameOutside [.pc] s t :=
  ⟨_, skipIf_eq p s, rfl, sameOutside_setPc s _⟩

/-- R141: a skip where a level is off. -/
theorem skipIf_not_next (p : Bool) (s : State) :
    ∃ t, skipIf (!p) s = .next t ∧ t.pc = (if p = true then s.pc else s.pc + 2) ∧ sameOutside [.pc] s t := by
  refine ⟨_, skipIf_eq (!p) s, ?_, sameOutside_setPc s _⟩
  cases p <;> rfl

/-! ### EX9E and EXA1 -/

theorem exec_skp (x : Reg) (s : State) :
    exec (.skp x) s = isPressed s (s.getV x) fun p => skipIf p s := rfl

theorem exec_sknp (x : Reg) (s : State) :
    exec (.sknp x) s = isPressed s (s.getV x) fun p => skipIf (!p) s := rfl

/-- Settles O48: the number of a key by `isPressed_key`, and a byte above 15, the number of no key, by `isPressed_ge`. -/
theorem keySkipsReadTheKeyLevel : Obligations.KeySkipsReadTheKeyLevel := by
  refine ⟨onRow_xll (fun _ => rfl) rfl rfl, onRow_xll (fun _ => rfl) rfl rfl, fun x s k hk => ?key,
    fun x s h => ?noKey⟩
  case key =>
    rw [exec_skp, exec_sknp, isPressed_key hk, isPressed_key hk]
    exact ⟨skipIf_next s.key[k] s, skipIf_not_next s.key[k] s⟩
  case noKey =>
    rw [exec_skp, exec_sknp, isPressed_ge s _ h, isPressed_ge s _ h]
    exact ⟨rfl, rfl⟩

end Sys2Proof.Machine

/-! PROOF. Family 0xF: the timers, the wait for a key, the index, and the transfers between registers and memory. -/

namespace Sys2Proof.Machine

/-! ### FX07, FX15 and FX18 -/

theorem sameOutside_setDt (s : State) (b : Byte) : sameOutside [.dt] s (s.setDt b) := by
  simp [sameOutside_iff, Part.same]

theorem sameOutside_setSt (s : State) (b : Byte) : sameOutside [.st] s (s.setSt b) := by
  simp [sameOutside_iff, Part.same]

/-- R38: the output is on for every value of ST but 0. -/
theorem soundOn_iff (s : State) : soundOn s = true ↔ s.st ≠ 0 := by
  have hzero : s.st.toNat = 0 ↔ s.st = 0 := BitVec.toNat_eq (y := 0).symm
  rw [soundOn, decide_eq_true_iff, gt_iff_lt, Nat.pos_iff_ne_zero, ne_eq, hzero]

/-- Settles O49: each instruction is one write, of DT to Vx, of Vx to DT, or of Vx to ST. -/
theorem timersAreReadAndSet : Obligations.TimersAreReadAndSet := by
  refine ⟨onRow_xll (fun _ => rfl) rfl rfl, onRow_xll (fun _ => rfl) rfl rfl, onRow_xll (fun _ => rfl) rfl rfl,
    fun x s => ⟨?_, ?_, ?_⟩⟩
  · exact ⟨s.setV x s.dt, rfl, State.getV_setV_same s x _, regsOutside_setV x _ s, sameOutside_setV s x _⟩
  · exact ⟨s.setDt (s.getV x), rfl, rfl, sameOutside_setDt s _⟩
  · exact ⟨s.setSt (s.getV x), rfl, rfl, soundOn_iff _, sameOutside_setSt s _⟩

/-! ### FX0A -/

/-- D16: the key found is the least one pressed. -/
theorem leastPressed_eq_some {s : State} {k : Fin 16} (hk : s.key[k] = true)
    (hlt : ∀ j : Fin 16, j < k → s.key[j] = false) : leastPressed s = some k := by
  refine List.find?_eq_some_iff_getElem.mpr ⟨hk, k.val, by simp, by simp, fun j hj => ?_⟩
  have hoff : s.key[j] = false := hlt ⟨j, by omega⟩ hj
  simp [hoff]

theorem exec_waitKey_some {x : Reg} {s : State} {k : Fin 16} (h : leastPressed s = some k) :
    exec (.waitKey x) s = .next (s.setV x (BitVec.ofNat 8 k.val)) := by
  simp only [exec, execWaitKey, h]

theorem exec_waitKey_none {x : Reg} {s : State} (h : leastPressed s = none) :
    exec (.waitKey x) s = .next (s.setPc (s.pc - 2)) := by
  simp only [exec, execWaitKey, h]

/-- Settles O50: with a key pressed by `leastPressed_eq_some`, with none by `leastPressed_none`. -/
theorem waitForKeyTakesTheLeastKey : Obligations.WaitForKeyTakesTheLeastKey := by
  refine ⟨onRow_xll (fun _ => rfl) rfl rfl, fun x s k hk hlt => ?pressed, fun x s hoff => ?none⟩
  case pressed =>
    refine ⟨_, exec_waitKey_some (leastPressed_eq_some hk hlt), ?_, regsOutside_setV x _ s, sameOutside_setV s x _⟩
    rw [State.getV_setV_same, BitVec.toNat_ofNat]
    omega
  case none => exact ⟨_, exec_waitKey_none (leastPressed_none.mpr hoff), rfl, sameOutside_setPc s _⟩

/-! ### FX1E and FX29 -/

/-- R150: the index is the exact sum, cut to 16 bits. -/
theorem exec_addI (x : Reg) (s : State) :
    exec (.addI x) s = .next (s.setI (BitVec.ofNat 16 (s.i.toNat + (zext16 (s.getV x)).toNat))) := rfl

/-- Settles O51: a cut to 16 bits is modulo 65536. -/
theorem addToIndexWrapsAt16Bits : Obligations.AddToIndexWrapsAt16Bits := by
  refine ⟨onRow_xll (fun _ => rfl) rfl rfl, fun x s => ⟨_, exec_addI x s, ?_, sameOutside_setI s _⟩⟩
  rw [State.setI_i, BitVec.toNat_ofNat, toNat_zext16 (s.getV x) (by omega)]

/-- R151: the glyphs lie five bytes apart from address 0 on. -/
theorem toNat_glyphAddr (b : Byte) : (glyphAddr b).toNat = 5 * (b.toNat % 16) := by
  have hnibble : (b &&& 0x0F).toNat = b.toNat % 16 := by
    rw [BitVec.toNat_and]
    exact Nat.and_two_pow_sub_one_eq_mod b.toNat 4
  rw [glyphAddr, BitVec.toNat_ofNat, hnibble, Config.fontBase, Config.glyphBytes]
  omega

/-- Settles O52: `LD` puts the address of the glyph in I. -/
theorem fontAddressIsFiveTimesTheDigit : Obligations.FontAddressIsFiveTimesTheDigit :=
  ⟨onRow_xll (fun _ => rfl) rfl rfl, fun x s =>
    ⟨s.setI (glyphAddr (s.getV x)), rfl, toNat_glyphAddr (s.getV x), sameOutside_setI s _⟩⟩

/-! ### FX33, FX55 and FX65 within memory -/

theorem exec_bcd_ok {x : Reg} {s : State} (h : dataAddr s 2 < 4096) :
    exec (.bcd x) s = .next (s.setMem (s.mem.putAll (dataAddr s 0) (bcdDigits (s.getV x)))) :=
  memWriteAll_ok s (.inr h)

/-- R153 at the default of the parameter of I (D12): the run of writes and nothing after it. -/
theorem exec_storeRegs (x : Reg) (s : State) :
    exec (.storeRegs x) s = memWriteAll (dataAddr s 0) (valuesUpTo x s) s := by
  simp only [exec, execStoreRegs, afterBlock_eq]
  cases memWriteAll (dataAddr s 0) (valuesUpTo x s) s <;> rfl

/-- R154 at the default of the parameter of I (D12): the run of loads and nothing after it. -/
theorem exec_loadRegs (x : Reg) (s : State) :
    exec (.loadRegs x) s = loadRegsFrom (dataAddr s 0) (regsUpTo x) s := by
  simp only [exec, execLoadRegs, afterBlock_eq]
  cases loadRegsFrom (dataAddr s 0) (regsUpTo x) s <;> rfl

theorem exec_storeRegs_ok {x : Reg} {s : State} (h : dataAddr s x.val < 4096) :
    exec (.storeRegs x) s = .next (s.setMem (s.mem.putAll (dataAddr s 0) (valuesUpTo x s))) := by
  rw [exec_storeRegs, memWriteAll_ok s (.inr (by rw [valuesUpTo_length]; exact h))]

theorem exec_loadRegs_ok {x : Reg} {s : State} (h : dataAddr s x.val < 4096) :
    exec (.loadRegs x) s = .next (loadFold (dataAddr s 0) (regsUpTo x) s) := by
  rw [exec_loadRegs]
  refine loadRegsFrom_ok _ s fun r hr => ?_
  have hle : r.val ≤ x.val := (mem_regsUpTo x r).mp hr
  simp only [dataAddr_eq] at h ⊢
  omega

theorem sameOutside_loadFold (a : Nat) (l : List Reg) (s : State) : sameOutside [.v] s (loadFold a l s) := by
  obtain ⟨v, hv⟩ := loadFold_fields a l s
  rw [hv]
  simp [sameOutside_iff, Part.same]

/-- The digits at their places make up the byte again. -/
theorem bcd_value (b : Byte) :
    100 * (BitVec.ofNat 8 (b.toNat / 100)).toNat + 10 * (BitVec.ofNat 8 (b.toNat / 10 % 10)).toNat +
      (BitVec.ofNat 8 (b.toNat % 10)).toNat = b.toNat := by
  have hb := b.isLt
  simp only [BitVec.toNat_ofNat]
  omega

/-- The last digit of a number fits a byte. -/
theorem toNat_digit_le (n : Nat) : (BitVec.ofNat 8 (n % 10)).toNat ≤ 9 := by
  rw [BitVec.toNat_ofNat]
  omega

/-- Settles O53: the three digits lie at I and up (`Memory.read_putAll_inside`). -/
theorem bcdStoresThreeDigits : Obligations.BcdStoresThreeDigits := by
  refine ⟨onRow_xll (fun _ => rfl) rfl rfl, fun x s hw h => ?_⟩
  have hdigit {k : Nat} {b : Byte} := Memory.read_putAll_inside (a := dataAddr s 0) (bs := bcdDigits (s.getV x))
    (k := k) (b := b) hw h
  exact ⟨_, _, _, _, exec_bcd_ok h, hdigit (k := 0) rfl, hdigit (k := 1) rfl, hdigit (k := 2) rfl, bcd_value _,
    toNat_digit_le _, toNat_digit_le _, fun a ha => Memory.read_putAll_outside s.mem _ ha, sameOutside_setMem s _⟩

/-- Settles O54: the value of each register lies at I plus its number (`Memory.read_putAll_inside`). -/
theorem storeRegistersAtIndex : Obligations.StoreRegistersAtIndex := by
  refine ⟨onRow_xll (fun _ => rfl) rfl rfl, fun x s hw h => ?_⟩
  have hlen : dataAddr s 0 + (valuesUpTo x s).length ≤ 4096 := by
    rw [valuesUpTo_length]
    exact h
  refine ⟨_, exec_storeRegs_ok h, fun r hr => Memory.read_putAll_inside hw hlen (valuesUpTo_get x s hr), fun a ha => ?_,
    sameOutside_setMem s _⟩
  refine Memory.read_putAll_outside s.mem _ ?_
  rw [valuesUpTo_length]
  exact ha

/-- Settles O55: the registers up to Vx are loaded, the ones above it are not on the list (`loadFold_getV`). -/
theorem loadRegistersFromIndex : Obligations.LoadRegistersFromIndex := by
  refine ⟨onRow_xll (fun _ => rfl) rfl rfl, fun x s h => ?_⟩
  refine ⟨_, exec_loadRegs_ok h, fun r hr => ?_, fun r hr => ?_, sameOutside_loadFold _ _ s⟩
  · have hle : r.val ≤ x.val := hr
    simp only [dataAddr_eq] at h ⊢
    rw [loadFold_getV, if_pos ((mem_regsUpTo x r).mpr hr), Memory.read_lt (by omega), Nat.add_zero]
  · rw [loadFold_getV, if_neg (mt (mem_regsUpTo x r).mp (not_le.mpr hr))]

/-! ### FX33, FX55 and FX65 out of memory -/

theorem exec_bcd_fault {x : Reg} {s : State} (h : 4096 ≤ dataAddr s 2) :
    exec (.bcd x) s = .fault (.outOfBoundsMemory (max s.i.toNat 4096)
      (s.setMem (s.mem.putAll s.i.toNat ((bcdDigits (s.getV x)).take (4096 - s.i.toNat))))) :=
  memWriteAll_fault s (List.cons_ne_nil _ _) (Nat.lt_succ_of_le h)

theorem exec_storeRegs_fault {x : Reg} {s : State} (h : 4096 ≤ dataAddr s x.val) :
    exec (.storeRegs x) s = .fault (.outOfBoundsMemory (max s.i.toNat 4096)
      (s.setMem (s.mem.putAll s.i.toNat ((valuesUpTo x s).take (4096 - s.i.toNat))))) := by
  have hne : valuesUpTo x s ≠ [] := List.ne_nil_of_length_pos (by simp)
  rw [exec_storeRegs]
  exact memWriteAll_fault s hne (by rw [valuesUpTo_length]; exact Nat.lt_succ_of_le h)

/-- The registers below `r`, and `r`, at the head of the registers up to Vx. -/
theorem regsUpTo_split : ∀ x r : Reg, r ≤ x →
    regsUpTo x = (List.finRange 16).take r.val ++ r :: (regsUpTo x).drop (r.val + 1) := by decide

theorem mem_take_finRange : ∀ r q : Reg, q ∈ (List.finRange 16).take r.val ↔ q < r := by decide

/-- The first byte that does not exist is the one for register `r`; the registers below it are loaded. -/
theorem exec_loadRegs_fault {x : Reg} {s : State} (h : 4096 ≤ dataAddr s x.val) :
    ∃ r : Reg, (∀ q : Reg, q < r ↔ dataAddr s q.val < 4096) ∧
      exec (.loadRegs x) s = .fault (.outOfBoundsMemory (max s.i.toNat 4096)
        (loadFold s.i.toNat ((List.finRange 16).take r.val) s)) := by
  simp only [dataAddr_eq] at h ⊢
  have hx := x.isLt
  obtain ⟨r, hr⟩ : ∃ r : Reg, r.val = 4096 - s.i.toNat := ⟨⟨_, by omega⟩, rfl⟩
  have hbelow (q : Reg) : q < r ↔ s.i.toNat + q.val < 4096 := by
    rw [Fin.lt_def]
    omega
  have hmax : max s.i.toNat 4096 = s.i.toNat + r.val := by omega
  refine ⟨r, hbelow, ?_⟩
  rw [exec_loadRegs, regsUpTo_split x r (by rw [Fin.le_def]; omega), hmax]
  exact loadRegsFrom_fault _ s (fun q hq => (hbelow q).mp ((mem_take_finRange r q).mp hq))
    (by rw [dataAddr_eq]; omega)

/-- The bytes of a run that exist are the ones a run that leaves memory has written. -/
theorem Memory.read_putAll_take {m : Memory} {a k : Nat} {bs : List Byte} {b : Byte} (hw : m.wf = true)
    (hk : a + k < 4096) (hb : bs[k]? = some b) : (m.putAll a (bs.take (4096 - a))).read (a + k) = some b := by
  refine Memory.read_putAll_inside hw ?_ ?_
  · rw [List.length_take]
    omega
  · rwa [List.getElem?_take_of_lt (by omega)]

/-- D8: an instruction that leaves memory while it stores keeps each byte that exists, and changes nothing else. -/
theorem exec_store_fault {i : Instr} {s : State} {e : Nat} {bs : List Byte} (hw : s.mem.wf = true)
    (he : exec i s = .fault (.outOfBoundsMemory e (s.setMem (s.mem.putAll s.i.toNat (bs.take (4096 - s.i.toNat)))))) :
    ∃ t, exec i s = .fault (.outOfBoundsMemory e t) ∧
      (∀ k b, bs[k]? = some b → dataAddr s k < 4096 → t.mem.read (dataAddr s k) = some b) ∧
      (∀ a, a < dataAddr s 0 → t.mem.read a = s.mem.read a) ∧ sameOutside [.mem] s t :=
  ⟨_, he, fun _ _ hb hk => Memory.read_putAll_take hw hk hb,
    fun _ ha => Memory.read_putAll_outside s.mem _ (.inl ha), sameOutside_setMem s _⟩

/-- Settles O56: the two stores by `exec_store_fault`, the load by `exec_loadRegs_fault`. -/
theorem transferFaultKeepsTheEarlierPart : Obligations.TransferFaultKeepsTheEarlierPart := by
  refine fun x s => ⟨fun hw h => ?bcd, fun hw h => ?store, fun h => ?load⟩
  case bcd =>
    obtain ⟨t, ht, hbytes, hbelow, hrest⟩ := exec_store_fault hw (exec_bcd_fault (x := x) h)
    exact ⟨t, ht, hbytes 0 _ rfl, hbytes 1 _ rfl, hbelow, hrest⟩
  case store =>
    obtain ⟨t, ht, hbytes, hbelow, hrest⟩ := exec_store_fault hw (exec_storeRegs_fault h)
    refine ⟨t, ht, fun r hr => ?_, hbelow, hrest⟩
    have hle : r ≤ x := by
      simp only [dataAddr_eq] at h hr
      rw [Fin.le_def]
      omega
    exact hbytes r.val _ (valuesUpTo_get x s hle) hr
  case load =>
    obtain ⟨r, hr, he⟩ := exec_loadRegs_fault h
    refine ⟨_, he, fun q hq => ?_, fun q hq => ?_, sameOutside_loadFold _ _ s⟩
    · have hmem := (mem_take_finRange r q).mpr ((hr q).mpr hq)
      rw [loadFold_getV, if_pos hmem, Memory.read_lt hq, dataAddr_eq]
    · have hmem := mt (mem_take_finRange r q).mp (mt (hr q).mp (not_lt.mpr hq))
      rw [loadFold_getV, if_neg hmem]

/-! ### The step that waits -/

theorem waiting_iff {s : State} :
    waiting s = true ↔ ∃ x, nextInstr s = some (.waitKey x) ∧ leastPressed s = none := by
  unfold waiting
  split
  case h_1 hx => simp [hx]
  case h_2 hx => exact iff_of_false Bool.false_ne_true fun ⟨x, hn, _⟩ => hx x hn

/-- D17: the wait undoes the advance of PC by the fetch. -/
theorem step_of_waiting {s : State} (h : waiting s = true) : step s = .next s := by
  obtain ⟨x, hx, hk⟩ := waiting_iff.mp h
  have hpc : s.pc + 2 - 2 = s.pc := BitVec.add_sub_cancel s.pc 2
  rw [step_eq_exec hx, exec_waitKey_none (s := s.setPc (s.pc + 2)) hk, State.setPc_pc, State.setPc_setPc, hpc,
    State.setPc_self]

@[simp] theorem State.setRnd_self (s : State) : s.setRnd s.rndIn s.draws = s := rfl

theorem not_rnd_of_waiting {s : State} (h : waiting s = true) (x : Reg) (nn : Byte) :
    nextInstr s ≠ some (.rnd x nn) := by
  intro hn
  rw [waiting_eq_false_of_rnd hn] at h
  cases h

/-- Only a step that waits is reported as one: every other report of a result is `completed` or a fault. -/
theorem waiting_of_stepWith {s : State} {r : Byte} (h : (stepWith r s).2 = .waiting) : waiting s = true := by
  by_contra hw
  rw [stepWith, if_neg hw] at h
  cases hs : step (s.setRnd [r] s.draws) <;> simp [hs, settle] at h

/-- Settles O12: the wait undoes the fetch (`step_of_waiting`), and no other step is reported so. -/
theorem waitingStepChangesNothing : Obligations.WaitingStepChangesNothing := by
  refine fun s r => ⟨fun h => ⟨step_of_waiting h, ?_⟩, waiting_of_stepWith⟩
  rw [stepWith_eq (not_rnd_of_waiting h), step_of_waiting h, h]
  rfl

end Sys2Proof.Machine

/-! PROOF. The faults: which ones an instruction can raise and when, the word that stands on no row, and the state and the
report a step that faults leaves. -/

namespace Sys2Proof.Machine

/-! ### A word on no row -/

/-- Settles O8: a word on no row decodes to an error (`decodeSelectsTheUniqueRow`). -/
theorem illegalWordFaults : Obligations.IllegalWordFaults := by
  intro s hi lo w hh hl hw hillegal
  obtain ⟨-, -, herror, -⟩ := decodeSelectsTheUniqueRow
  obtain ⟨hlt, rfl⟩ := wordAt_of_read hh hl hw
  exact step_of_decode_error hlt (herror _ hillegal)

/-! ### The faults an instruction can raise -/

/-- `Raises s i f`: the instruction `i` can raise the fault `f` in the state `s`. It leaves open the recorded value and the
state after an access outside memory, and the index of a key that does not exist. -/
inductive Raises (s : State) : Instr → Fault → Prop
  | memory (i : Instr) (a : Nat) (t : State) (h : i.accessFaults s) : Raises s i (.outOfBoundsMemory a t)
  | overflow (nnn : Addr12) (h : 16 ≤ s.sp.toNat) : Raises s (.call nnn) (.stackOverflow s.pc s)
  | underflow (h : s.sp.toNat = 0 ∨ 16 < s.sp.toNat) : Raises s .ret (.stackUnderflow s)
  | key (i : Instr) (k : Byte) (h : i.keyFaults s) : Raises s i (.keyIndexOutOfRange k s)

theorem exec_call_ge (nnn : Addr12) {s : State} (h : 16 ≤ s.sp.toNat) :
    exec (.call nnn) s = .fault (.stackOverflow s.pc s) := by
  simp only [exec, execCall, push_ge s.pc s h, andThen_fault]

theorem isPressed_skipIf_fault {s : State} {b : Byte} {g : Bool → Bool} {f : Fault}
    (h : isPressed s b (fun p => skipIf (g p) s) = .fault f) : 15 < b.toNat ∧ f = .keyIndexOutOfRange b s := by
  by_cases hb : b.toNat < 16
  · rw [isPressed_lt s _ hb, skipIf_eq] at h
    cases h
  · rw [isPressed_ge s _ (by omega)] at h
    cases h
    exact ⟨by omega, rfl⟩

theorem exec_accessFaults {i : Instr} {s : State} (h : i.accessFaults s) :
    ∃ a t, exec i s = .fault (.outOfBoundsMemory a t) := by
  cases i
  case drw x y n =>
    obtain ⟨hn, ha⟩ := h
    exact ⟨_, _, exec_drw_error (readBytes_error s.mem (by omega) (by rw [dataAddr_eq]; omega))⟩
  case bcd x => exact ⟨_, _, exec_bcd_fault h⟩
  case storeRegs x => exact ⟨_, _, exec_storeRegs_fault h⟩
  case loadRegs x =>
    obtain ⟨r, -, he⟩ := exec_loadRegs_fault h
    exact ⟨_, _, he⟩
  all_goals exact h.elim

/-- An instruction whose accesses all exist completes, or it raises the fault of an access. -/
theorem raises_of_next_or_access {i : Instr} {s : State} {f : Fault}
    (hok : ¬ i.accessFaults s → ∃ t, exec i s = .next t) (h : exec i s = .fault f) : Raises s i f := by
  by_cases hm : i.accessFaults s
  · obtain ⟨a, t, he⟩ := exec_accessFaults hm
    cases he.symm.trans h
    exact .memory i a t hm
  · obtain ⟨t, he⟩ := hok hm
    cases he.symm.trans h

/-- Every fault of an instruction is one that it can raise. -/
theorem raises_of_exec_fault {i : Instr} {s : State} {f : Fault} (h : exec i s = .fault f) : Raises s i f := by
  cases i
  case ret =>
    by_cases hsp : s.sp.toNat = 0 ∨ 16 < s.sp.toNat
    · rcases pop_cases s (fun a s' => .next (s'.setPc a)) with h' | ⟨_, h'⟩ <;>
        simp only [exec, execRet, h'] at h <;> cases h
      exact .underflow hsp
    · simp only [exec, execRet, pop_pos s _ (by omega : 0 < s.sp.toNat) (by omega)] at h
      cases h
  case call nnn =>
    by_cases hsp : s.sp.toNat < 16
    · rw [exec_call_lt nnn (k := ⟨_, hsp⟩) rfl] at h
      cases h
    · have hfull : 16 ≤ s.sp.toNat := by omega
      rw [exec_call_ge nnn hfull] at h
      cases h
      exact .overflow nnn hfull
  case skp x =>
    obtain ⟨hk, rfl⟩ := isPressed_skipIf_fault (g := id) h
    exact .key _ _ hk
  case sknp x =>
    obtain ⟨hk, rfl⟩ := isPressed_skipIf_fault (g := not) h
    exact .key _ _ hk
  case drw x y n =>
    refine raises_of_next_or_access (fun hm => ⟨_, exec_drw_ok (readBytes_ok s.mem ?_)⟩) h
    simp only [Instr.accessFaults, dataAddr_eq] at hm ⊢
    omega
  case bcd x => exact raises_of_next_or_access (fun hm => ⟨_, exec_bcd_ok (not_le.mp hm)⟩) h
  case storeRegs x => exact raises_of_next_or_access (fun hm => ⟨_, exec_storeRegs_ok (not_le.mp hm)⟩) h
  case loadRegs x => exact raises_of_next_or_access (fun hm => ⟨_, exec_loadRegs_ok (not_le.mp hm)⟩) h
  case waitKey x =>
    rcases exec_waitKey_cases x s with ⟨k, _, h'⟩ | ⟨_, h'⟩ <;> rw [h'] at h <;> cases h
  all_goals cases h

/-! ### Accesses outside memory -/

theorem exec_outOfBounds_iff (i : Instr) (s : State) :
    (∃ a t, exec i s = .fault (.outOfBoundsMemory a t)) ↔ i.accessFaults s := by
  refine ⟨fun ⟨a, t, h⟩ => ?_, exec_accessFaults⟩
  cases raises_of_exec_fault h with
  | memory _ _ _ hm => exact hm

theorem step_outOfBounds_iff (s : State) :
    (∃ a t, step s = .fault (.outOfBoundsMemory a t)) ↔
      4095 ≤ s.pc.toNat ∨ ∃ i, nextInstr s = some i ∧ i.accessFaults (s.setPc (s.pc + 2)) := by
  rcases step_cases s with ⟨hp, hs⟩ | ⟨hp, e, hd, hs⟩ | ⟨hp, i, hd, hs⟩
  · exact iff_of_true ⟨_, _, hs⟩ (.inl hp)
  · simp [hs, hp, nextInstr_eq_some, hd]
  · simp [hs, hp, nextInstr_eq_some, hd, exec_outOfBounds_iff]

theorem loadProgram_outOfBounds_iff (bytes : List Byte) (s : State) :
    (∃ a t, loadProgram bytes s = .fault (.outOfBoundsMemory a t)) ↔ 3584 < bytes.length := by
  rw [loadProgram, Config.progBase]
  by_cases h : 3584 < bytes.length
  · have hne : bytes ≠ [] := List.ne_nil_of_length_pos (by omega)
    exact iff_of_true ⟨_, _, memWriteAll_fault s hne (by omega)⟩ h
  · simp [memWriteAll_ok s (a := 0x200) (bs := bytes) (.inr (by omega)), h]

/-- Settles O22: an instruction by what it can raise (`Raises`), a step by its instruction, a load by its length. -/
theorem memoryFaultsExactlyWhen : Obligations.MemoryFaultsExactlyWhen :=
  ⟨exec_outOfBounds_iff, step_outOfBounds_iff, loadProgram_outOfBounds_iff⟩

/-! ### Faults of the stack and the keys -/

theorem exec_keyFaults {i : Instr} {s : State} (h : i.keyFaults s) :
    ∃ k t, exec i s = .fault (.keyIndexOutOfRange k t) := by
  cases i
  case skp x => exact ⟨_, _, (exec_skp x s).trans (isPressed_ge s _ h)⟩
  case sknp x => exact ⟨_, _, (exec_sknp x s).trans (isPressed_ge s _ h)⟩
  all_goals exact h.elim

/-- Settles O23: each fault is one the instruction can raise (`Raises`), and is raised where it can be. -/
theorem stackAndKeyFaultsExactlyWhen : Obligations.StackAndKeyFaultsExactlyWhen := by
  refine fun i s hsp => ⟨fun v t => ⟨fun h => ?overflow, ?full⟩, fun t => ⟨fun h => ?underflow, ?empty⟩,
    ⟨fun ⟨k, t, h⟩ => ?key, exec_keyFaults⟩, fun k t h => ?after, fun w t h => ?opcode⟩
  case full =>
    rintro ⟨⟨nnn, rfl⟩, hfull, rfl, rfl⟩
    exact exec_call_full nnn hfull
  case empty =>
    rintro ⟨rfl, hempty, rfl⟩
    exact exec_ret_zero hempty
  all_goals cases raises_of_exec_fault h
  case overflow nnn hfull => exact ⟨⟨nnn, rfl⟩, by omega, rfl, rfl⟩
  case underflow hempty => exact ⟨rfl, by omega, rfl⟩
  case key hk => exact hk
  case after => rfl

/-! ### What a step that faults leaves -/

/-- D8: only a transfer changes anything before its fault, registers by `FX65` and memory by `FX33` and `FX55`. -/
theorem exec_fault_after {i : Instr} {s : State} {f : Fault} (h : exec i s = .fault f) :
    sameOutside [.v, .mem] s f.after ∧ ((∀ x, i ≠ .loadRegs x) → Part.same .v s f.after) ∧
      ((∀ x, i ≠ .bcd x ∧ i ≠ .storeRegs x) → Part.same .mem s f.after) := by
  rcases exec_fault_cases h with ⟨x, rfl, e, v, rfl⟩ | ⟨x, hi, e, m, _, rfl⟩ | ht
  · exact ⟨by simp [sameOutside_iff, Part.same, Fault.after], fun hno => absurd rfl (hno x), fun _ _ => rfl⟩
  · refine ⟨sameOutside_mono (sameOutside_setMem s m) (by simp), fun _ _ => rfl, fun hno => ?_⟩
    obtain ⟨hbcd, hstore⟩ := hno x
    exact absurd hi (not_or.mpr ⟨hbcd, hstore⟩)
  · rw [ht]
    exact ⟨sameOutside_refl _ s, fun _ _ => rfl, fun _ _ => rfl⟩

/-- A frame from a state with PC moved is one from the state itself, PC left aside. -/
theorem sameOutside_of_setPc {ps : List Part} {s t : State} {w : Word} (h : sameOutside ps (s.setPc w) t) :
    sameOutside (.pc :: ps) s t := by
  intro p hp
  have hpc : p ≠ .pc := List.ne_of_not_mem_cons hp
  have hps : p ∉ ps := List.not_mem_of_not_mem_cons hp
  cases p
  case pc => exact absurd rfl hpc
  all_goals exact h _ hps

/-- D7: a fault of the fetch leaves the state, a word on no row leaves it with PC past the word, and an instruction as
`exec_fault_after` says. -/
theorem step_fault_after {s : State} {f : Fault} (h : step s = .fault f) :
    (4095 ≤ s.pc.toNat ∧ f.after = s) ∨
    (s.pc.toNat < 4095 ∧ f.after.pc = s.pc + 2 ∧ sameOutside [.pc, .v, .mem] s f.after ∧
      ((∀ x, nextInstr s ≠ some (.loadRegs x)) → Part.same .v s f.after) ∧
      ((∀ x, nextInstr s ≠ some (.bcd x) ∧ nextInstr s ≠ some (.storeRegs x)) → Part.same .mem s f.after)) := by
  rcases step_cases s with ⟨hp, hs⟩ | ⟨hp, e, hd, hs⟩ | ⟨hp, i, hd, hs⟩ <;> rw [hs] at h
  · cases h
    exact .inl ⟨hp, rfl⟩
  · cases h
    exact .inr ⟨hp, rfl, sameOutside_mono (sameOutside_setPc s _) (by simp), fun _ _ => rfl, fun _ _ => rfl⟩
  · obtain ⟨hrest, hv, hmem⟩ := exec_fault_after h
    have hn : nextInstr s = some i := nextInstr_eq_some.mpr ⟨hp, hd⟩
    simp only [hn, ne_eq, Option.some.injEq]
    exact .inr ⟨hp, hrest .pc (by decide), sameOutside_of_setPc hrest, hv, hmem⟩

/-! ### What the transaction reports of a fault -/

/-- `CXNN` raises no fault. -/
theorem not_rnd_of_step_fault {s : State} {f : Fault} (h : step s = .fault f) (x : Reg) (nn : Byte) :
    nextInstr s ≠ some (.rnd x nn) := by
  intro hn
  rw [step_eq_exec hn] at h
  cases h

/-- A fault leaves the random input as it was. -/
theorem setRnd_after_of_step_fault {s : State} {f : Fault} (h : step s = .fault f) :
    f.after.setRnd s.rndIn s.draws = f.after := by
  have hrnd : Part.same .rnd s f.after := by
    rcases step_fault_after h with ⟨_, ht⟩ | ⟨_, _, hrest, _⟩
    · rw [ht]
      exact ⟨rfl, rfl⟩
    · exact hrest .rnd (by decide)
  obtain ⟨hin, hdraws⟩ := hrnd
  rw [← hin, ← hdraws, State.setRnd_self]

/-- R182: the transaction goes on from the state the fault leaves, and reports the fault. -/
theorem stepWith_of_step_fault {s : State} {f : Fault} (h : step s = .fault f) (r : Byte) :
    stepWith r s = (f.after, .faulted f.kind f.info) := by
  rw [stepWith_eq (not_rnd_of_step_fault h), h]
  simp only [settle, setRnd_after_of_step_fault h]

theorem step_fault_of_isFault {s : State} {r : Byte} (h : (stepWith r s).2.isFault = true) :
    ∃ f, step s = .fault f := by
  by_cases hrnd : ∃ x nn, nextInstr s = some (.rnd x nn)
  · obtain ⟨x, nn, hn⟩ := hrnd
    rw [stepWith_rnd hn] at h
    cases h
  · rw [stepWith_eq fun x nn hn => hrnd ⟨x, nn, hn⟩] at h
    cases hs : step s with
    | next t =>
      rw [hs] at h
      cases hw : waiting s <;> simp [hw, settle, Report.isFault] at h
    | fault f => exact ⟨f, rfl⟩
    | refused q =>
      obtain ⟨-, hstep⟩ := nothingIsRefused
      exact absurd hs (hstep s q)

/-- Settles O13: the state by `step_fault_after`, the report of each kind of fault by `stepWith_of_step_fault`. -/
theorem faultLeavesPcPastTheInstruction : Obligations.FaultLeavesPcPastTheInstruction :=
  ⟨fun _ _ => step_fault_after, fun _ r =>
    ⟨fun _ _ h => stepWith_of_step_fault h r, fun _ _ h => stepWith_of_step_fault h r,
      fun _ h => stepWith_of_step_fault h r, fun _ _ h => stepWith_of_step_fault h r,
      fun _ _ h => stepWith_of_step_fault h r, step_fault_of_isFault⟩⟩

end Sys2Proof.Machine

/-! PROOF. The tick of the timers, and the jump to itself. -/

namespace Sys2Proof.Machine

/-! ### The tick -/

/-- One less, floored at 0. -/
theorem toNat_pred_floor (b : Byte) : (if b = 0 then 0 else b - 1).toNat = b.toNat - 1 := by
  split
  case isTrue h =>
    rw [h]
    rfl
  case isFalse h =>
    have hpos : 0 < b.toNat := Nat.pos_of_ne_zero fun e => h (BitVec.eq_of_toNat_eq e)
    exact sp_pred_toNat hpos

/-- R184: each timer is written once, whatever the other is. -/
theorem tickTimers_eq (s : State) :
    tickTimers s = (s.setDt (if s.dt = 0 then 0 else s.dt - 1)).setSt (if s.st = 0 then 0 else s.st - 1) := by
  have hdt : (if s.dt = 0 then s else s.setDt (s.dt - 1)) = s.setDt (if s.dt = 0 then 0 else s.dt - 1) := by
    split
    case isTrue h => rw [← h]; rfl
    case isFalse => rfl
  rw [tickTimers, hdt]
  split
  case isTrue h => rw [← h]; rfl
  case isFalse => rfl

theorem sameOutside_setDt_setSt (s : State) (b c : Byte) : sameOutside [.dt, .st] s ((s.setDt b).setSt c) := by
  simp [sameOutside_iff, Part.same]

/-- Settles O58: each timer by `toNat_pred_floor`. -/
theorem tickDecrementsBothTimers : Obligations.TickDecrementsBothTimers := by
  intro s
  exact ⟨_, congrArg (·, Report.done) (tickTimers_eq s), toNat_pred_floor s.dt, toNat_pred_floor s.st,
    sameOutside_setDt_setSt s _ _⟩

/-! ### The jump to itself -/

theorem step_of_stopped {s : State} (h : Stopped s) : step s = .next s := by
  obtain ⟨nnn, hn, hpc⟩ := h
  calc step s = .next ((s.setPc (s.pc + 2)).setPc (zext16 nnn)) := step_eq_exec hn
    _ = .next s := by rw [hpc, State.setPc_setPc, State.setPc_self]

/-- Settles O11: a jump is neither `CXNN` nor a wait. -/
theorem jumpToItselfIsAFixedPoint : Obligations.JumpToItselfIsAFixedPoint := by
  refine fun s r h => ⟨step_of_stopped h, ?_⟩
  have ⟨nnn, hn, _⟩ := h
  have hwaiting : waiting s = false := by simp only [waiting, hn]
  rw [stepWith_eq (by simp [hn]), step_of_stopped h, hwaiting]
  rfl

end Sys2Proof.Machine
